-- ==== Sys2Proof/Word.lean ====
section
/-! DEFINITION. The word types of the host port (spec 00_scope.md R10, 20_memory.md R60). -/

namespace Sys2Proof

/-- A byte: string characters, lengths, result codes, unit counts (R14, R30, R41). -/
abbrev Byte := BitVec 8

/-- A 32-bit register value: "Every register is 32 bits wide" (R10). -/
abbrev Word := BitVec 32

/-- A host-port byte address: "Addresses are ADDR_W = 9-bit byte addresses, 0x000..0x1FF" (R60). -/
abbrev Addr := BitVec 9

end Sys2Proof
end

