-- ==== Sys2Proof/Syntax.lean ====
section
/-! DEFINITION. The commands of the block, one constructor per row of spec/opcode_table.json (spec 30_encoding.md R82). -/

namespace Sys2Proof

/-- A command of command interface version 1 (R2, R82). "The only operand inside the command word is S, one bit" (R85):
`s = true` is on, `s = false` is off. -/
inductive Instr where
  /-- OP 0x01, 40_encoder.md R100 -/
  | encode (s : Bool)
  /-- OP 0x02, 41_expander.md R150 -/
  | expand
  /-- OP 0x03, 42_compiler.md R160 -/
  | compile
  /-- OP 0x04, 43_transmitter.md R170 -/
  | transmit
  /-- OP 0x05, 43_transmitter.md R180 -/
  | send (s : Bool)
  /-- OP 0x06, 44_config.md R200 -/
  | setProtocol
  /-- OP 0x07, 44_config.md R204 -/
  | setRepeat
  deriving DecidableEq, Repr

end Sys2Proof
end

