-- ==== Sys2Proof/Decode.lean ====
section
/-! DEFINITION. Decoding a command word, total on every 32-bit word and rejecting by name, and the encoder written from the
same table (spec 30_encoding.md R80 to R84, R89). A command is "exactly one word" written whole to CMD, so there is no byte
layout to decode (log 16). -/

namespace Sys2Proof

/-- Why a command word is illegal (R84). The block reports all three as E_ILLEGAL_CMD. -/
inductive DecodeError where
  /-- "a word with any RSV bit set" -/
  | reservedBitsSet
  /-- "a word whose OP is 0x00 or 0x08..0xFF" -/
  | unknownOpcode (op : Byte)
  /-- "a word with S = 1 and an OP other than 0x01 or 0x05" -/
  | statusBitSet (op : Byte)
  deriving DecidableEq, Repr

/-- OP, bits [7:0] of a command word (R80). -/
def opField (w : Word) : Byte := w.extractLsb' 0 8

/-- S, bit [8] of a command word (R80). -/
def statusField (w : Word) : Bool := w.getLsbD 8

/-- RSV, bits [31:9] of a command word (R80). -/
def reservedField (w : Word) : BitVec 23 := w.extractLsb' 9 23

/-- The commands that take no operand, by opcode (R82). -/
def plainCommand (op : Byte) : Option Instr :=
  if op = 0x02 then some .expand
  else if op = 0x03 then some .compile
  else if op = 0x04 then some .transmit
  else if op = 0x06 then some .setProtocol
  else if op = 0x07 then some .setRepeat
  else none

/-- The command a word stands for, or why it stands for none (R82, R84). -/
def decode (w : Word) : Except DecodeError Instr :=
  if reservedField w ≠ 0 then .error .reservedBitsSet
  else if opField w = 0x01 then .ok (.encode (statusField w))
  else if opField w = 0x05 then .ok (.send (statusField w))
  else match plainCommand (opField w) with
    | none => .error (.unknownOpcode (opField w))
    | some i => if statusField w then .error (.statusBitSet (opField w)) else .ok i

/-- The command of a word, if it is legal. -/
def decode? (w : Word) : Option Instr := (decode w).toOption

/-- One row of the opcode map: a word matches when its bits under `mask` are `pattern` (R82). -/
structure OpcodeRow where
  mnemonic : String
  pattern : Word
  mask : Word
  deriving DecidableEq, Repr

/-- The opcode map, row for row as R82 gives it. -/
def opcodeMap : List OpcodeRow :=
  [ { mnemonic := "ENCODE", pattern := 0x00000001, mask := 0xFFFFFEFF },
    { mnemonic := "EXPAND", pattern := 0x00000002, mask := 0xFFFFFFFF },
    { mnemonic := "COMPILE", pattern := 0x00000003, mask := 0xFFFFFFFF },
    { mnemonic := "TRANSMIT", pattern := 0x00000004, mask := 0xFFFFFFFF },
    { mnemonic := "SEND", pattern := 0x00000005, mask := 0xFFFFFEFF },
    { mnemonic := "SET_PROTOCOL", pattern := 0x00000006, mask := 0xFFFFFFFF },
    { mnemonic := "SET_REPEAT", pattern := 0x00000007, mask := 0xFFFFFFFF } ]

/-- A word matches a row: `(v AND r.mask) = r.match` (R83). -/
def OpcodeRow.hits (r : OpcodeRow) (w : Word) : Bool := w &&& r.mask == r.pattern

/-- `legal(v)` of R83. -/
def legal (w : Word) : Bool := opcodeMap.any fun r => r.hits w

/-- OP of a command (R82). -/
def Instr.opcode : Instr → Byte
  | .encode _ => 0x01
  | .expand => 0x02
  | .compile => 0x03
  | .transmit => 0x04
  | .send _ => 0x05
  | .setProtocol => 0x06
  | .setRepeat => 0x07

/-- S of a command (R82): 0 where the map says "must be 0". -/
def Instr.statusBit : Instr → Bool
  | .encode s => s
  | .send s => s
  | .expand => false
  | .compile => false
  | .transmit => false
  | .setProtocol => false
  | .setRepeat => false

/-- The word of a command: the 32-character pattern of R81, RSV = 0, then S, then OP. -/
def encode (i : Instr) : Word := (0 : BitVec 23) ++ BitVec.ofBool i.statusBit ++ i.opcode

/-- The host's question: the command the decoder reads from the word whose low `nbits` bits are those of `w` and whose
other bits are 0, numbered as spec/opcode_table.json numbers them. -/
def decodeTableWord (nbits w : Nat) : Option Instr :=
  if w % 2 ^ nbits < 2 ^ 32 then decode? (BitVec.ofNat 32 (w % 2 ^ nbits)) else none

end Sys2Proof
end

