-- ==== Sys2Proof/Config.lean ====
section
/-! DEFINITION. What one build of the block fixes and the spec leaves OPEN (spec 00_scope.md R8), and the free values that
only a state no reset has reached can show. Every operation that needs a parameter takes a `Params`; the machine runs with
the uninterpreted `Config.build`, so no proof about the machine can use a particular value. -/

namespace Sys2Proof

/-- One pulse shape in protocol units: `high` at the first level, then `low` at the second (R16, R42). -/
structure Waveform where
  high : Byte
  low : Byte
  deriving DecidableEq, Repr, Inhabited

/-- One entry of PROTO_TABLE, with the widths of R42. -/
structure Protocol where
  /-- pulseUnit, in microseconds -/
  pulseUnit : BitVec 16
  syncBit : Waveform
  zeroBit : Waveform
  oneBit : Waveform
  inverted : Bool
  deriving DecidableEq, Repr, Inhabited

/-- The OPEN parameters of R8, and four free values.
Assumption log 4 to 9. -/
structure Params where
  /-- TICKS_PER_US − 1: "OPEN, a positive integer", so the predecessor is any number (log 4). -/
  ticksPerUsPred : Nat
  /-- TX_START_LAT: "OPEN, an integer ≥ 0" (log 5). -/
  txStartLat : Nat
  /-- PROTO_TABLE[2..6] (R44, log 6); the indices 0 and 7 are free too and are never reached after a reset. -/
  openProtocol : BitVec 3 → Protocol
  /-- What an index beyond WF_DATA[32] delivers: free, reachable only before the first reset (R252, log 7). -/
  wfBeyond : Nat → BitVec 16
  /-- What HOLD_LEFT = 0 counts down to: free, reachable only before the first reset (R252, log 8). -/
  holdBelowZero : Nat
  /-- What REP_LEFT = 0 counts down to, in its 31 bits: free, likewise (log 9). -/
  repBelowZero : BitVec 31
  /-- What WF_IDX = 63 counts up to, in its 6 bits: free, likewise (log 9). -/
  idxPastEnd : BitVec 6
  deriving Inhabited

/-- TICKS_PER_US, clock cycles per microsecond (R8). -/
def Params.ticksPerUs (p : Params) : Nat := p.ticksPerUsPred + 1

/-- The parameters of the build the machine runs on: uninterpreted (R8, R44, R255: "A model must not assume any value for
them"). -/
opaque Config.build : Params

end Sys2Proof
end

