-- ==== Sys2Proof/Machine/State.lean ====
section
/-! DEFINITION. Everything the spec gives the block as state (spec 10_state.md R20 to R51), as plain data, its reset, and the
reasons a step could stop. -/

namespace Sys2Proof.Machine

/-- One host access (20_memory.md R63: every access moves 32 bits). -/
inductive HostAccess where
  /-- `MemRead(addr, 4)` (R68) -/
  | read (addr : Addr)
  /-- `MemWrite(addr, 4, v)` (R69) -/
  | write (addr : Addr) (v : Word)
  deriving DecidableEq, Repr

/-- What the outside presents to the block at one rising edge of `clk`: the level of `rst` and at most one host access
(20_memory.md R70, 70_reset_and_hazards.md R250). -/
structure EdgeInput where
  rst : Bool
  access : Option HostAccess
  deriving DecidableEq, Repr

/-- An edge at which nothing is presented. -/
def EdgeInput.idle : EdgeInput := { rst := false, access := none }

/-- One input string: its LEN register and its two D registers (R30, R31). -/
structure StringBuffer where
  len : Byte
  d0 : Word
  d1 : Word
  deriving DecidableEq, Repr

/-- The block, and the two ends of its host port. Names in brackets are the spec's. -/
structure State where
  /-- STATUS[0] BUSY (R23, R24) -/
  busy : Bool
  /-- STATUS[1] OVERRUN (R23, R25) -/
  overrun : Bool
  /-- STATUS[15:8] RESULT (R23, 60_exceptions.md R221) -/
  result : Byte
  /-- STATUS[23:16] LAST_OP (R23, R25) -/
  lastOp : Byte
  /-- ARG (R26) -/
  arg : Word
  /-- PROTOCOL[2:0] (R27) -/
  protocol : BitVec 3
  /-- REPEAT[30:0] (R28) -/
  repeatCount : BitVec 31
  /-- FAM_LEN, FAM_D0, FAM_D1 (R30, R31) -/
  fam : StringBuffer
  /-- GRP_LEN, GRP_D0, GRP_D1 (R30, R31) -/
  grp : StringBuffer
  /-- DEV_LEN, DEV_D0, DEV_D1 (R30, R31) -/
  dev : StringBuffer
  /-- CW_LEN (R34) -/
  cwLen : Byte
  /-- CW_DATA (R35) -/
  cwData : Word
  /-- BIN_LEN (R37) -/
  binLen : Byte
  /-- BIN_DATA (R38) -/
  binData : Word
  /-- WF_LEN (R40) -/
  wfLen : Byte
  /-- WF_DATA[0..32] (R41) -/
  wfData : Vector (BitVec 16) 33
  /-- SCHEME[2:0] (R29) -/
  scheme : BitVec 3
  /-- REP_LEFT, shown by TX_REP_LEFT (R46, R48) -/
  repLeft : BitVec 31
  /-- WF_IDX, shown by TX_POS (R46, R49) -/
  wfIdx : BitVec 6
  /-- PHASE, shown by TX_POS (R46, R49) -/
  phase : Bool
  /-- HOLD_LEFT, internal (R46) -/
  holdLeft : Nat
  /-- START_LEFT, internal (R46) -/
  startLeft : Nat
  /-- TX_OUT, the output `tx_out` (R46, R50) -/
  txOut : Bool
  /-- The model's own: what the outside presents at the coming edges, oldest first; after its end, nothing (log 1). -/
  inputs : List EdgeInput
  /-- The model's own: the word a host read returned at the last edge, if that edge held a read (log 2). -/
  reply : Option Word
  deriving DecidableEq, Repr

/-- A stop with a fault. There is none: "The block raises no trap, exception or interrupt" (60_exceptions.md R220), every
address has a meaning (20_memory.md R62) and every command word too (R84). A type with no constructor says so: no step can
fault, and no claim can be lost to one (safe; log 11). -/
inductive Fault where
  deriving DecidableEq, Repr

/-- A stop for want of a meaning. -/
inductive Refusal where
  /-- An instruction that has no meaning yet, by its mnemonic; raised by no arm, since every command has its meaning
  (safe). -/
  | notModelled (mnemonic : String)
  deriving DecidableEq, Repr

/-- The state after reset, every value as 10_state.md R51 lists it; the two port fields are empty (log 1, 2). -/
def State.reset : State where
  busy := false
  overrun := false
  result := 0x00
  lastOp := 0x00
  arg := 0x00000000
  protocol := 1
  repeatCount := 10
  fam := { len := 0, d0 := 0, d1 := 0 }
  grp := { len := 0, d0 := 0, d1 := 0 }
  dev := { len := 0, d0 := 0, d1 := 0 }
  cwLen := 0
  cwData := 0
  binLen := 0
  binData := 0
  wfLen := 0
  wfData := Vector.replicate 33 0
  scheme := 0
  repLeft := 0
  wfIdx := 0
  phase := false
  holdLeft := 0
  startLeft := 0
  txOut := false
  inputs := []
  reply := none

end Sys2Proof.Machine
end

