-- ==== Sys2Proof/Machine/Flags.lean ====
section
/-! DEFINITION. STATUS: its result codes, its word, and what `issue` writes to it before any command runs (spec 10_state.md R23
to R25, 30_encoding.md R83, 60_exceptions.md R221). -/

namespace Sys2Proof.Machine

/-- The result codes (R221). -/
inductive ResultCode where
  | ok | illegalCmd | len | unsupported | deviceNotInt
  | aGroupLen | aDeviceLen
  | bGroupRange | bDeviceRange
  | cFamily | cGroup | cDevice
  | dGroup | dDevice
  | protocolRange | repeatRange
  deriving DecidableEq, Repr

/-- The number of a result code (R221). -/
def ResultCode.toByte : ResultCode → Byte
  | .ok => 0x00
  | .illegalCmd => 0x01
  | .len => 0x02
  | .unsupported => 0x10
  | .deviceNotInt => 0x11
  | .aGroupLen => 0x20
  | .aDeviceLen => 0x21
  | .bGroupRange => 0x30
  | .bDeviceRange => 0x31
  | .cFamily => 0x40
  | .cGroup => 0x41
  | .cDevice => 0x42
  | .dGroup => 0x50
  | .dDevice => 0x51
  | .protocolRange => 0x60
  | .repeatRange => 0x61

/-- One bit as a 32-bit value. -/
def bitWord (b : Bool) : Word := (BitVec.ofBool b).setWidth 32

/-- STATUS as the host reads it: `zext_32(LAST_OP ++ RESULT ++ 0b000000 ++ OVERRUN ++ BUSY)` (R23, R68). -/
def statusWord (s : State) : Word :=
  (s.lastOp ++ s.result ++ (0 : BitVec 6) ++ BitVec.ofBool s.overrun ++ BitVec.ofBool s.busy).setWidth 32

/-- What `issue` writes first, whatever the command does after: OVERRUN <- 0, LAST_OP <- v[7:0], RESULT <- OK (R83). -/
def State.beginCommand (s : State) (op : Byte) : State :=
  { s with overrun := false, lastOp := op, result := ResultCode.ok.toByte }

end Sys2Proof.Machine
end

