-- ==== Sys2Proof/Machine/Operands.lean ====
section
/-! DEFINITION. Every operand form: string bytes and the classes of characters, integers, the signed ARG, tri-state symbols,
binary elements, waveforms, and the protocol table (spec 00_scope.md R11 to R15, 10_state.md R31 to R45, 30_encoding.md R86 to
R88). -/

namespace Sys2Proof.Machine

/-! ## Capacities (00_scope.md R8) -/

/-- STR_CAP -/
def strCap : Nat := 8

/-- CW_CAP -/
def cwCap : Nat := 16

/-- BIN_CAP -/
def binCap : Nat := 32

/-- WF_CAP -/
def wfCap : Nat := 33

/-! ## Strings and characters -/

/-- Byte `k` of a data register: bits [8k+7:8k] (R31). -/
def byteOf (w : Word) (k : Nat) : Byte := w.extractLsb' (8 * k) 8

/-- Byte `k` of a string buffer: k = 0..3 in D0, k = 4..7 in D1, least significant byte first (R31, R64). -/
def StringBuffer.byte (b : StringBuffer) (k : Nat) : Byte := if k < 4 then byteOf b.d0 k else byteOf b.d1 (k - 4)

/-- The eight bytes a string buffer holds, byte 0 first (R31). -/
def StringBuffer.allBytes (b : StringBuffer) : List Byte :=
  [ b.byte 0, b.byte 1, b.byte 2, b.byte 3, b.byte 4, b.byte 5, b.byte 6, b.byte 7 ]

/-- "The string the encoder sees is bytes 0..LEN−1 of the buffer, and bytes at index ≥ LEN are ignored." (R31) -/
def StringBuffer.bytes (b : StringBuffer) : List Byte := b.allBytes.take b.len.toNat

/-- The length fits the buffer (R101). -/
def StringBuffer.fits (b : StringBuffer) : Bool := b.len.toNat ≤ strCap

/-- `isDigit(b)` (R13) -/
def isDigit (b : Byte) : Bool := 0x30 ≤ b.toNat && b.toNat ≤ 0x39

/-- `isHex(b)` (R13) -/
def isHex (b : Byte) : Bool :=
  isDigit b || (0x61 ≤ b.toNat && b.toNat ≤ 0x66) || (0x41 ≤ b.toNat && b.toNat ≤ 0x46)

/-- `lower(b)` (R13) -/
def lower (b : Byte) : Byte := if 0x41 ≤ b.toNat && b.toNat ≤ 0x5A then b + 0x20 else b

/-- The value of a decimal digit, `b − 0x30` (R15). -/
def digitValue (b : Byte) : Nat := b.toNat - 0x30

/-- The decimal value of a digit string, leading zeros allowed (R15). -/
def intValue (s : List Byte) : Nat := s.foldl (fun v b => 10 * v + digitValue b) 0

/-- "A byte string `s` parses as an integer iff `len(s) ≥ 1` and `isDigit(s[k])` holds for every `k`." (R15) -/
def parseInt (s : List Byte) : Option Nat := if s ≠ [] ∧ s.all isDigit then some (intValue s) else none

/-- The value of a hexadecimal digit (R126). -/
def hexValue (b : Byte) : Nat := if isDigit b then b.toNat - 0x30 else (lower b).toNat - 0x61 + 10

/-- `sint32(v)`, the two's-complement value of ARG (R11). -/
def sint32 (v : Word) : Int := if v.getLsbD 31 then (v.toNat : Int) - 2 ^ 32 else v.toNat

/-! ## Tri-state symbols and binary strings -/

/-- A tri-state symbol (R12). -/
inductive Tri where
  | zero | one | float
  deriving DecidableEq, Repr

/-- The 2-bit code of a symbol; 0b01 is no symbol's code (R86). -/
def Tri.code : Tri → BitVec 2
  | .zero => 0b00
  | .one => 0b11
  | .float => 0b10

/-- The code in place `i` of a CW_DATA word: `CW_DATA[2i+1:2i]` (R35). -/
def symbolAt (d : Word) (i : Nat) : BitVec 2 := d.extractLsb' (2 * i) 2

/-- A CW_DATA word with these codes from place 0 on, and 0b00 in every later place (R87, R100). -/
def packCodes : List (BitVec 2) → Word
  | [] => 0
  | c :: cs => packCodes cs <<< 2 ||| c.setWidth 32

/-- A CW_DATA word that holds a tri-state string (R87). -/
def packSymbols (t : List Tri) : Word := packCodes (t.map Tri.code)

/-- A BIN_DATA word that holds a binary string, element `i` in bit `i`, zeros after it (R38, R88, R154). -/
def packBits : List Bool → Word
  | [] => 0
  | b :: bs => packBits bs <<< 1 ||| (BitVec.ofBool b).setWidth 32

/-! ## Waveforms and the protocol table -/

/-- A waveform as a WF_DATA entry: `high` in the low byte, `low` in the next (R41, R64). -/
def waveWord (w : Waveform) : BitVec 16 := w.low ++ w.high

/-- `WF_DATA[i][7:0]`, the count at the first level (R41). -/
def highCount (w : BitVec 16) : Byte := w.extractLsb' 0 8

/-- `WF_DATA[i][15:8]`, the count at the second level (R41). -/
def lowCount (w : BitVec 16) : Byte := w.extractLsb' 8 8

/-- WF_DATA[i], by any index; an index beyond 32 delivers a free value (log 7). -/
def wfEntry (p : Params) (s : State) (i : Nat) : BitVec 16 := if h : i < 33 then s.wfData[i] else p.wfBeyond i

/-- PROTO_TABLE[1] (R43). -/
def protocol1 : Protocol where
  pulseUnit := 350
  syncBit := { high := 1, low := 31 }
  zeroBit := { high := 1, low := 3 }
  oneBit := { high := 3, low := 1 }
  inverted := false

/-- PROTO_TABLE[n] (R42 to R44): entry 1 as the spec gives it, every other one OPEN (log 6). -/
def protoEntry (p : Params) (n : BitVec 3) : Protocol := if n = 1 then protocol1 else p.openProtocol n

/-- `PROTO_TABLE[PROTOCOL]`, the entry of the active protocol. -/
def State.proto (p : Params) (s : State) : Protocol := protoEntry p s.protocol

end Sys2Proof.Machine
end

