-- ==== Sys2Proof/Machine/Registers.lean ====
section
/-! DEFINITION. The register map of the host port: names, offsets, access (spec 10_state.md R20, 20_memory.md R61, R62). -/

namespace Sys2Proof.Machine

/-- The registers of R20, under the table's names. -/
inductive Reg where
  | cmd | status | arg | protocol | repeatCount
  | famLen | famD0 | famD1
  | grpLen | grpD0 | grpD1
  | devLen | devD0 | devD1
  | cwLen | cwData | binLen | binData | wfLen
  | scheme | txRepLeft | txPos
  | pUnit | pSync | pZero | pOne
  | wfData (i : Fin 33)
  deriving DecidableEq, Repr

/-- How the host may use a register (R20, column "access"). -/
inductive Access where
  | readOnly | writeOnly | readWrite
  deriving DecidableEq, Repr

/-- The byte offset of a register (R20, column "offset"). -/
def Reg.offset : Reg → Addr
  | .cmd => 0x000
  | .status => 0x004
  | .arg => 0x008
  | .protocol => 0x00C
  | .repeatCount => 0x010
  | .famLen => 0x014
  | .famD0 => 0x018
  | .famD1 => 0x01C
  | .grpLen => 0x020
  | .grpD0 => 0x024
  | .grpD1 => 0x028
  | .devLen => 0x02C
  | .devD0 => 0x030
  | .devD1 => 0x034
  | .cwLen => 0x038
  | .cwData => 0x03C
  | .binLen => 0x040
  | .binData => 0x044
  | .wfLen => 0x048
  | .scheme => 0x04C
  | .txRepLeft => 0x050
  | .txPos => 0x054
  | .pUnit => 0x058
  | .pSync => 0x05C
  | .pZero => 0x060
  | .pOne => 0x064
  | .wfData i => BitVec.ofNat 9 (0x100 + 4 * i.val)

/-- The access of a register (R20, column "access"). -/
def Reg.access : Reg → Access
  | .cmd => .writeOnly
  | .arg | .famLen | .famD0 | .famD1 | .grpLen | .grpD0 | .grpD1 | .devLen | .devD0 | .devD1 => .readWrite
  | .cwLen | .cwData | .binLen | .binData | .wfLen | .wfData _ => .readWrite
  | .status | .protocol | .repeatCount | .scheme | .txRepLeft | .txPos => .readOnly
  | .pUnit | .pSync | .pZero | .pOne => .readOnly

/-- The registers from offset 0x000 to 0x064, slot by slot (R20). -/
def lowRegisters : List Reg :=
  [ .cmd, .status, .arg, .protocol, .repeatCount, .famLen, .famD0, .famD1, .grpLen, .grpD0, .grpD1, .devLen, .devD0,
    .devD1, .cwLen, .cwData, .binLen, .binData, .wfLen, .scheme, .txRepLeft, .txPos, .pUnit, .pSync, .pZero, .pOne ]

/-- "The word slot an access reaches is `addr[8:2]`. Bits `addr[1:0]` are ignored." (R61) -/
def slotOf (a : Addr) : BitVec 7 := a.extractLsb' 2 7

/-- The register in a word slot; `none` for the reserved offsets 0x068..0x0FC and 0x184..0x1FC (R62). -/
def regInSlot (slot : BitVec 7) : Option Reg :=
  if h : 0x40 ≤ slot.toNat ∧ slot.toNat ≤ 0x60 then some (.wfData ⟨slot.toNat - 0x40, by omega⟩)
  else lowRegisters[slot.toNat]?

/-- The register an access to a byte address reaches (R61). -/
def regAt (a : Addr) : Option Reg := regInSlot (slotOf a)

end Sys2Proof.Machine
end

