-- ==== Sys2Proof/Machine/Ops.lean ====
section
/-! DEFINITION. The shared operations: raising an error (this hardware's only exception), running a command around its checks,
and reading and writing registers (spec 20_memory.md R62 to R69, 60_exceptions.md R220 to R224). -/

namespace Sys2Proof.Machine

/-! ## Errors -/

/-- `raise E_X(info)`: "STATUS.RESULT <- E_X, and the command ends with no further effect" (R223). `info` is not stored (R222).
"An error saves no state, changes no mode, masks nothing and transfers control nowhere", and there is no return from it: "the
next accepted command overwrites RESULT and LAST_OP" (R224). -/
def State.raise (s : State) (c : ResultCode) : State := { s with result := c.toByte }

/-- One accepted command: `issue`'s own writes, then the command's body, which ends with a new state or with an error raised
before its first write (R83, R223). -/
def runCommand (op : Byte) (body : State → Except ResultCode State) (s : State) : Host.Outcome State Fault Refusal :=
  match body (s.beginCommand op) with
  | .ok t => .next t
  | .error c => .next ((s.beginCommand op).raise c)

/-! ## Reading registers -/

/-- A waveform as the host reads it in PSYNC, PZERO, PONE (R45). -/
def countsWord (w : Waveform) : Word := (waveWord w).setWidth 32

/-- PUNIT: `[15:0]` = pulseUnit, `[31]` = inverted (R45). -/
def unitWord (q : Protocol) : Word := bitWord q.inverted <<< 31 ||| q.pulseUnit.setWidth 32

/-- TX_POS: `TX_OUT << 16 | PHASE << 8 | WF_IDX` (R49, R68). -/
def positionWord (s : State) : Word := bitWord s.txOut <<< 16 ||| bitWord s.phase <<< 8 ||| s.wfIdx.setWidth 32

/-- The word a register reads as, undefined bits 0 (R63, R68). -/
def readReg (p : Params) (s : State) : Reg → Word
  | .cmd => 0
  | .status => statusWord s
  | .arg => s.arg
  | .protocol => s.protocol.setWidth 32
  | .repeatCount => s.repeatCount.setWidth 32
  | .famLen => s.fam.len.setWidth 32
  | .famD0 => s.fam.d0
  | .famD1 => s.fam.d1
  | .grpLen => s.grp.len.setWidth 32
  | .grpD0 => s.grp.d0
  | .grpD1 => s.grp.d1
  | .devLen => s.dev.len.setWidth 32
  | .devD0 => s.dev.d0
  | .devD1 => s.dev.d1
  | .cwLen => s.cwLen.setWidth 32
  | .cwData => s.cwData
  | .binLen => s.binLen.setWidth 32
  | .binData => s.binData
  | .wfLen => s.wfLen.setWidth 32
  | .scheme => s.scheme.setWidth 32
  | .txRepLeft => s.repLeft.setWidth 32
  | .txPos => positionWord s
  | .pUnit => unitWord (s.proto p)
  | .pSync => countsWord (s.proto p).syncBit
  | .pZero => countsWord (s.proto p).zeroBit
  | .pOne => countsWord (s.proto p).oneBit
  | .wfData i => s.wfData[i].setWidth 32

/-- `MemRead(addr, 4)` (R68): a reserved offset reads 0 (R62). -/
def memRead (p : Params) (s : State) (a : Addr) : Word :=
  match regAt a with
  | some r => readReg p s r
  | none => 0

/-! ## Writing registers -/

/-- The bits of a register that a host write stores (R63): none in a read-only register, and none in CMD, which has no
storage (R22). -/
def writableBits : Reg → Word
  | .arg => 0xFFFFFFFF
  | .famLen => 0x000000FF
  | .famD0 => 0xFFFFFFFF
  | .famD1 => 0xFFFFFFFF
  | .grpLen => 0x000000FF
  | .grpD0 => 0xFFFFFFFF
  | .grpD1 => 0xFFFFFFFF
  | .devLen => 0x000000FF
  | .devD0 => 0xFFFFFFFF
  | .devD1 => 0xFFFFFFFF
  | .cwLen => 0x000000FF
  | .cwData => 0xFFFFFFFF
  | .binLen => 0x000000FF
  | .binData => 0xFFFFFFFF
  | .wfLen => 0x000000FF
  | .wfData _ => 0x0000FFFF
  | .cmd | .status | .protocol | .repeatCount | .scheme | .txRepLeft | .txPos | .pUnit | .pSync | .pZero | .pOne => 0

/-- A host write to a register that is not CMD, made while BUSY = 0 (R69): a read-only register ignores it. -/
def writeReg (s : State) (v : Word) : Reg → State
  | .arg => { s with arg := v }
  | .famLen => { s with fam := { s.fam with len := v.setWidth 8 } }
  | .famD0 => { s with fam := { s.fam with d0 := v } }
  | .famD1 => { s with fam := { s.fam with d1 := v } }
  | .grpLen => { s with grp := { s.grp with len := v.setWidth 8 } }
  | .grpD0 => { s with grp := { s.grp with d0 := v } }
  | .grpD1 => { s with grp := { s.grp with d1 := v } }
  | .devLen => { s with dev := { s.dev with len := v.setWidth 8 } }
  | .devD0 => { s with dev := { s.dev with d0 := v } }
  | .devD1 => { s with dev := { s.dev with d1 := v } }
  | .cwLen => { s with cwLen := v.setWidth 8 }
  | .cwData => { s with cwData := v }
  | .binLen => { s with binLen := v.setWidth 8 }
  | .binData => { s with binData := v }
  | .wfLen => { s with wfLen := v.setWidth 8 }
  | .wfData i => { s with wfData := s.wfData.set i (v.setWidth 16) }
  | .cmd | .status | .protocol | .repeatCount | .scheme | .txRepLeft | .txPos | .pUnit | .pSync | .pZero | .pOne => s

end Sys2Proof.Machine
end

