-- ==== Sys2Proof/Machine/Settings.lean ====
section
/-! DEFINITION. SET_PROTOCOL and SET_REPEAT (spec 44_config.md R200 to R206). -/

namespace Sys2Proof.Machine

/-- PROTOCOL <- n (R201). -/
def State.setProtocol (s : State) (n : Int) : State := { s with protocol := BitVec.ofInt 3 n }

/-- The body of SET_PROTOCOL: n = sint32(ARG) must be 1..6 (R200, R203). -/
def setProtocolOp (s : State) : Except ResultCode State :=
  if sint32 s.arg < 1 ∨ 6 < sint32 s.arg then .error .protocolRange else .ok (s.setProtocol (sint32 s.arg))

/-- SET_PROTOCOL (R200). -/
def execSetProtocol (s : State) : Host.Outcome State Fault Refusal := runCommand 0x06 setProtocolOp s

/-- REPEAT <- n (R205). -/
def State.setRepeat (s : State) (n : Int) : State := { s with repeatCount := BitVec.ofInt 31 n }

/-- The body of SET_REPEAT: n = sint32(ARG) must be positive (R204, R206). -/
def setRepeatOp (s : State) : Except ResultCode State :=
  if sint32 s.arg ≤ 0 then .error .repeatRange else .ok (s.setRepeat (sint32 s.arg))

/-- SET_REPEAT (R204). -/
def execSetRepeat (s : State) : Host.Outcome State Fault Refusal := runCommand 0x07 setRepeatOp s

end Sys2Proof.Machine
end

