-- ==== Sys2Proof/Machine/Compiler.lean ====
section
/-! DEFINITION. COMPILE: bits to waveforms of the active protocol (spec 42_compiler.md R160 to R166). -/

namespace Sys2Proof.Machine

/-- Entry `i` of the waveform sequence compiled from `n` bits: a data waveform, the one trailing sync, or the cleared tail
(R161, R162, R163). -/
def compiledEntry (q : Protocol) (d : Word) (n i : Nat) : BitVec 16 :=
  if i < n then waveWord (if d.getLsbD i then q.oneBit else q.zeroBit)
  else if i = n then waveWord q.syncBit
  else 0

/-- What COMPILE writes: all 33 entries of WF_DATA, and WF_LEN = BIN_LEN + 1 (R160, R163, R165). -/
def State.setWaveforms (s : State) (q : Protocol) : State :=
  { s with
    wfData := Vector.ofFn fun i : Fin 33 => compiledEntry q s.binData s.binLen.toNat i.val
    wfLen := s.binLen + 1 }

/-- The body of COMPILE (R160). -/
def compileOp (p : Params) (s : State) : Except ResultCode State :=
  if s.binLen.toNat > binCap then .error .len else .ok (s.setWaveforms (s.proto p))

/-- COMPILE (R160). -/
def execCompile (s : State) : Host.Outcome State Fault Refusal := runCommand 0x03 (compileOp Config.build) s

end Sys2Proof.Machine
end

