-- ==== Sys2Proof/Machine/Encoder.lean ====
section
/-! DEFINITION. ENCODE: the scheme dispatch and the four codeword generators (spec 40_encoder.md R100 to R140). -/

namespace Sys2Proof.Machine

/-- The four schemes (R16). -/
inductive Scheme where
  | typeA | typeB | typeC | typeD
  deriving DecidableEq, Repr

/-- The SCHEME register's number for a scheme (R29). -/
def Scheme.code : Scheme → BitVec 3
  | .typeA => 1
  | .typeB => 2
  | .typeC => 3
  | .typeD => 4

/-! ## Type A -/

/-- "'0'→'F', any other char→'0'" (R112; 90_conflicts.md C2, C3). -/
def typeASymbol (b : Byte) : Tri := if b = 0x30 then .float else .zero

/-- The Type A generator: group length, then device length, are its only checks (R110, R111, R113). -/
def typeA (grp dev : List Byte) (s : Bool) : Except ResultCode (List Tri) :=
  if grp.length ≠ 5 then .error .aGroupLen
  else if dev.length ≠ 5 then .error .aDeviceLen
  else .ok (grp.map typeASymbol ++ dev.map typeASymbol ++ (if s then [.zero, .float] else [.float, .zero]))

/-! ## Type B -/

/-- A 4-symbol one-hot block: `0` at position `n` of 1..4, `F` elsewhere (R121). -/
def oneHotB (n : Nat) : List Tri := [1, 2, 3, 4].map fun k => if k = n then .zero else .float

/-- The Type B generator on one group byte and one device byte, both digits (R120, R121). -/
def typeB (g d : Byte) (s : Bool) : Except ResultCode (List Tri) :=
  if digitValue g < 1 ∨ digitValue g > 4 then .error .bGroupRange
  else if digitValue d < 1 ∨ digitValue d > 4 then .error .bDeviceRange
  else .ok (oneHotB (digitValue g) ++ oneHotB (digitValue d) ++ [.float, .float, .float] ++ [if s then .float else .zero])

/-! ## Type C -/

/-- The integer in 1..4 a string stands for, or none (R125). -/
def oneToFour (s : List Byte) : Option Nat :=
  match parseInt s with
  | some n => if 1 ≤ n ∧ n ≤ 4 then some n else none
  | none => none

/-- The hexadecimal digit a family string is, or none (R125, R126). -/
def familyValue (fam : List Byte) : Option Nat :=
  match fam with
  | [b] => if isHex b then some (hexValue b) else none
  | _ => none

/-- The four family symbols, least significant bit first: `F` for a 1 bit (R127; 90_conflicts.md C1). -/
def familySymbols (v : Nat) : List Tri := [0, 1, 2, 3].map fun k => if v.testBit k then .float else .zero

/-- `conf(i)`: two symbols from the two low bits of `i − 1`, bit 0 first, `0` for a 1 bit (R128). UNVERIFIED: "mark Type C
device/group encoding as *unverified*" (R130, 93_implementation_defined.md I1; log 10). -/
def conf (i : Nat) : List Tri := [0, 1].map fun k => if (i - 1).testBit k then .zero else .float

/-- The Type C generator: family, then group, then device are checked; the device's symbols precede the group's (R125 to
R129). -/
def typeC (fam grp dev : List Byte) (s : Bool) : Except ResultCode (List Tri) :=
  match familyValue fam with
  | none => .error .cFamily
  | some v => match oneToFour grp with
    | none => .error .cGroup
    | some g => match oneToFour dev with
      | none => .error .cDevice
      | some d => .ok (familySymbols v ++ conf d ++ conf g ++ [.zero, .float, .float] ++ [if s then .float else .zero])

/-! ## Type D -/

/-- A one-hot block of `n` symbols: `1` at index `k`, `F` elsewhere (R136). -/
def oneHotD (n k : Nat) : List Tri := (List.range n).map fun j => if j = k then .one else .float

/-- The Type D generator on one group byte that is no digit and one device byte that is (R135 to R138). -/
def typeD (g d : Byte) (s : Bool) : Except ResultCode (List Tri) :=
  if (lower g).toNat < 0x61 ∨ (lower g).toNat > 0x64 then .error .dGroup
  else if digitValue d < 1 ∨ digitValue d > 3 then .error .dDevice
  else .ok (oneHotD 4 ((lower g).toNat - 0x61) ++ oneHotD 3 (digitValue d - 1) ++ [.zero, .zero, .zero]
    ++ (if s then [.one, .zero] else [.zero, .one]))

/-! ## Dispatch and the command -/

/-- A generator's codeword, with the scheme it belongs to. -/
def asScheme (sch : Scheme) : Except ResultCode (List Tri) → Except ResultCode (Scheme × List Tri)
  | .ok t => .ok (sch, t)
  | .error c => .error c

/-- Scheme dispatch on strings that fit their buffers, "evaluated in this order" (R102; 90_conflicts.md C8). -/
def dispatchScheme (fam grp dev : List Byte) (s : Bool) : Except ResultCode (Scheme × List Tri) :=
  if 1 ≤ fam.length then asScheme .typeC (typeC fam grp dev s)
  else if 1 < grp.length ∧ 1 < dev.length then asScheme .typeA (typeA grp dev s)
  else match grp, dev with
    | [g], [d] =>
      if isDigit d then
        if isDigit g then asScheme .typeB (typeB g d s) else asScheme .typeD (typeD g d s)
      else .error .deviceNotInt
    | _, _ => .error .unsupported

/-- `encodeFn`: the length precheck, then the dispatch (R101, R102). -/
def encodeFn (fam grp dev : StringBuffer) (s : Bool) : Except ResultCode (Scheme × List Tri) :=
  if fam.fits && grp.fits && dev.fits then dispatchScheme fam.bytes grp.bytes dev.bytes s else .error .len

/-- What a successful ENCODE writes: CW_LEN = 12, the symbols with 0b00 after them, and SCHEME (R103). -/
def State.setCodeword (st : State) (sch : Scheme) (t : List Tri) : State :=
  { st with cwLen := 12, cwData := packSymbols t, scheme := sch.code }

/-- The body of ENCODE (R100). -/
def encodeOp (s : Bool) (st : State) : Except ResultCode State :=
  match encodeFn st.fam st.grp st.dev s with
  | .ok (sch, t) => .ok (st.setCodeword sch t)
  | .error c => .error c

/-- ENCODE (R100). -/
def execEncode (s : Bool) (st : State) : Host.Outcome State Fault Refusal := runCommand 0x01 (encodeOp s) st

end Sys2Proof.Machine
end

