-- ==== Sys2Proof/Machine/Expander.lean ====
section
/-! DEFINITION. EXPAND: tri-state symbols to bits (spec 41_expander.md R150 to R155). -/

namespace Sys2Proof.Machine

/-- The expansion of a code: its bit 0, then its bit 1; 0b01 "is silently skipped (not an error)" (R151, R152; 90_conflicts.md
C4, C5). -/
def expandCode (c : BitVec 2) : List Bool := if c = 0b01 then [] else [c.getLsbD 0, c.getLsbD 1]

/-- The binary string of the first `n` symbols of a CW_DATA word (R150, R151). -/
def expandBits (d : Word) (n : Nat) : List Bool := (List.range n).flatMap fun i => expandCode (symbolAt d i)

/-- What EXPAND writes: BIN_LEN and every bit of BIN_DATA (R150, R154). -/
def State.setBinary (s : State) (b : List Bool) : State :=
  { s with binLen := BitVec.ofNat 8 b.length, binData := packBits b }

/-- The body of EXPAND (R150). -/
def expandOp (s : State) : Except ResultCode State :=
  if s.cwLen.toNat > cwCap then .error .len else .ok (s.setBinary (expandBits s.cwData s.cwLen.toNat))

/-- EXPAND (R150). -/
def execExpand (s : State) : Host.Outcome State Fault Refusal := runCommand 0x02 expandOp s

end Sys2Proof.Machine
end

