-- ==== Sys2Proof/Machine/Sequencer.lean ====
section
/-! DEFINITION. The sequencer: levels, segment durations, starting, stepping, finishing (spec 43_transmitter.md R171 to R179,
10_state.md R46, R47). -/

namespace Sys2Proof.Machine

/-- L1, the level of every `high` count: 1, or 0 for an inverted protocol (R172). -/
def firstLevel (q : Protocol) : Bool := !q.inverted

/-- L2, the level of every `low` count: 0, or 1 for an inverted protocol (R172). -/
def secondLevel (q : Protocol) : Bool := q.inverted

/-- `dur(n) = max(1, n · P.pulseUnit · TICKS_PER_US)` clock cycles (R173; a zero count lasts one cycle, R187; log 14). -/
def dur (p : Params) (q : Protocol) (n : Byte) : Nat := max 1 (n.toNat * q.pulseUnit.toNat * p.ticksPerUs)

/-- The unit count of the segment at the sequencer's position: the high count in phase 0, else the low count (R171). -/
def segmentCount (p : Params) (s : State) : Byte :=
  if s.phase then lowCount (wfEntry p s s.wfIdx.toNat) else highCount (wfEntry p s s.wfIdx.toNat)

/-- The level of the segment at the sequencer's position (R171, R172). -/
def segmentLevel (p : Params) (s : State) : Bool := if s.phase then secondLevel (s.proto p) else firstLevel (s.proto p)

/-- `beginSegment()`: drive the level, load the cycle counter (R171). -/
def beginSegment (p : Params) (s : State) : State :=
  { s with txOut := segmentLevel p s, holdLeft := dur p (s.proto p) (segmentCount p s) }

/-- The position a transmission begins at, with BUSY set (R171). -/
def State.takePosition (s : State) : State :=
  { s with busy := true, repLeft := s.repeatCount, wfIdx := 0, phase := false }

/-- `start()`: the first segment begins TX_START_LAT edges after the accepting one (R171). -/
def start (p : Params) (s : State) : State :=
  if p.txStartLat = 0 then beginSegment p s.takePosition else { s.takePosition with startLeft := p.txStartLat }

/-- HOLD_LEFT − 1; what 0 counts down to is a free value (log 8). -/
def holdDown (p : Params) (n : Nat) : Nat := if n = 0 then p.holdBelowZero else n - 1

/-- REP_LEFT − 1; what 0 counts down to is a free value (log 9). -/
def repDown (p : Params) (r : BitVec 31) : BitVec 31 := if r = 0 then p.repBelowZero else r - 1

/-- WF_IDX + 1; what 63 counts up to is a free value (log 9). -/
def idxUp (p : Params) (i : BitVec 6) : BitVec 6 := if i = 63 then p.idxPastEnd else i + 1

/-- The next position once a segment has ended; `none` when it was the last segment of the last frame (R174). -/
def advance (p : Params) (s : State) : Option State :=
  if s.phase = false then some { s with phase := true }
  else if s.wfIdx.toNat + 1 < s.wfLen.toNat then some { s with phase := false, wfIdx := idxUp p s.wfIdx }
  else if repDown p s.repLeft = 0 then none
  else some { s with phase := false, wfIdx := 0, repLeft := repDown p s.repLeft }

/-- `finish()`: the sequencer is idle again, TX_OUT keeps its value (R175, R176). -/
def finish (s : State) : State :=
  { s with busy := false, repLeft := 0, wfIdx := 0, phase := false, holdLeft := 0 }

/-- `seqStep()`, the sequencer's work at one edge with BUSY = 1 (R174). -/
def seqStep (p : Params) (s : State) : State :=
  if 0 < s.startLeft then
    if s.startLeft = 1 then beginSegment p { s with startLeft := 0 } else { s with startLeft := s.startLeft - 1 }
  else if 0 < holdDown p s.holdLeft then { s with holdLeft := holdDown p s.holdLeft }
  else match advance p { s with holdLeft := 0 } with
    | some t => beginSegment p t
    | none => finish s

/-- Step 2 of an edge: "the sequencer takes one step, if BUSY = 1" (20_memory.md R70). -/
def sequencerEdge (p : Params) (s : State) : State := if s.busy then seqStep p s else s

end Sys2Proof.Machine
end

