-- ==== Sys2Proof/Machine/Transmitter.lean ====
section
/-! DEFINITION. TRANSMIT and SEND (spec 43_transmitter.md R170, R180 to R182, R186). -/

namespace Sys2Proof.Machine

/-- The body of TRANSMIT: E_LEN above WF_CAP, nothing for an empty sequence, else the transmission starts (R170, R186). -/
def transmitOp (p : Params) (s : State) : Except ResultCode State :=
  if s.wfLen.toNat > wfCap then .error .len
  else if s.wfLen = 0 then .ok s
  else .ok (start p s)

/-- TRANSMIT (R170). -/
def execTransmit (s : State) : Host.Outcome State Fault Refusal := runCommand 0x04 (transmitOp Config.build) s

/-- The body of SEND: ENCODE, EXPAND, COMPILE, TRANSMIT, each reading what the one before it wrote (R180, R181). -/
def sendOp (p : Params) (s : Bool) (st : State) : Except ResultCode State :=
  match encodeOp s st with
  | .error c => .error c
  | .ok s1 => match expandOp s1 with
    | .error c => .error c
    | .ok s2 => match compileOp p s2 with
      | .error c => .error c
      | .ok s3 => transmitOp p s3

/-- SEND (R180). -/
def execSend (s : Bool) (st : State) : Host.Outcome State Fault Refusal := runCommand 0x05 (sendOp Config.build s) st

end Sys2Proof.Machine
end

