-- ==== Sys2Proof/Machine/Dispatch.lean ====
section
/-! DEFINITION. One arm per command: what an ACCEPTED command does, that is, one written to CMD while BUSY = 0 (spec
30_encoding.md R83). The interlock stands before it, in Machine/Port.lean (70_reset_and_hazards.md R262). -/

namespace Sys2Proof.Machine

def exec (i : Instr) (s : State) : Host.Outcome State Fault Refusal :=
  match i with
  | .encode b => Sys2Proof.Machine.execEncode b s
  | .expand => Sys2Proof.Machine.execExpand s
  | .compile => Sys2Proof.Machine.execCompile s
  | .transmit => Sys2Proof.Machine.execTransmit s
  | .send b => Sys2Proof.Machine.execSend b s
  | .setProtocol => Sys2Proof.Machine.execSetProtocol s
  | .setRepeat => Sys2Proof.Machine.execSetRepeat s

end Sys2Proof.Machine
end

