-- ==== Sys2Proof/Machine/Port.lean ====
section
/-! DEFINITION. The host port and one clock edge: issuing a command, the BUSY interlock, reset, and the order of an edge (spec
20_memory.md R66 to R71, 30_encoding.md R83, R84, 70_reset_and_hazards.md R250, R262). -/

namespace Sys2Proof.Machine

/-- `issue(v)`: a CMD write made while BUSY = 0. An illegal word raises E_ILLEGAL_CMD after `issue`'s own writes (R83, R84). -/
def issue (s : State) (v : Word) : Host.Outcome State Fault Refusal :=
  match decode v with
  | .ok i => exec i s
  | .error _ => .next ((s.beginCommand (opField v)).raise .illegalCmd)

/-- "While STATUS.BUSY = 1, every host write … is dropped. It changes no state except that it sets STATUS.OVERRUN <- 1." (R262) -/
def State.dropWrite (s : State) : State := { s with overrun := true }

/-- `MemWrite(addr, 4, v)` (R69): dropped while BUSY = 1; else a command, a register write, or nothing at a reserved offset. -/
def memWrite (s : State) (a : Addr) (v : Word) : Host.Outcome State Fault Refusal :=
  if s.busy then .next s.dropWrite
  else match regAt a with
    | some .cmd => issue s v
    | some r => .next (writeReg s v r)
    | none => .next s

/-- What the outside presents at this edge: the oldest entry, or nothing (log 1). -/
def State.edgeInput (s : State) : EdgeInput := s.inputs.headD EdgeInput.idle

/-- The state an edge starts from: its input taken, no read answered yet (log 1, 2). -/
def State.takeInput (s : State) : State := { s with inputs := s.inputs.tail, reply := none }

/-- The state the host access of this edge finds: "the state left by step 2" (R70). -/
def State.atAccess (s : State) : State := sequencerEdge Config.build s.takeInput

/-- A host read's answer goes to the port; "a host read never changes any state" of the block (R67). -/
def State.answer (s : State) (w : Word) : State := { s with reply := some w }

/-- Step 3 of an edge: at most one host access, against the state the sequencer left (R70). -/
def hostAccess (s : State) : Option HostAccess → Host.Outcome State Fault Refusal
  | none => .next s
  | some (.read a) => .next (s.answer (memRead Config.build s a))
  | some (.write a v) => memWrite s a v

/-- What the port answers while `rst` = 1: "reads return 0" and nothing else (R250). -/
def resetReply : Option HostAccess → Option Word
  | some (.read _) => some 0
  | some (.write _ _) => none
  | none => none

/-- The block after an edge with `rst` = 1: every register at its reset value; the host's later inputs are not the block's
(R250, R251, log 1). -/
def resetEdge (s : State) : State :=
  { State.reset with inputs := s.inputs.tail, reply := resetReply s.edgeInput.access }

/-- One rising edge of `clk`: reset, else the sequencer, then the host access (R70). -/
def clockEdge (s : State) : Host.Outcome State Fault Refusal :=
  if s.edgeInput.rst then .next (resetEdge s)
  else hostAccess s.atAccess s.edgeInput.access

/-- The state whose very next edge accepts the word `v` as a command: a CMD write is the next input, and a transmission in
progress, which would drop it, has ended (log 15). -/
def placeCommand (s : State) (v : Word) : State :=
  { (if s.busy then finish s else s) with
    inputs := { rst := false, access := some (.write Reg.cmd.offset v) } :: s.inputs }

end Sys2Proof.Machine
end

