-- ==== Sys2Proof/Machine/Step.lean ====
section
/-! DEFINITION. The machine's step, one rising edge of `clk` (spec 20_memory.md R70), and the host's way to present a command
word to it. -/

namespace Sys2Proof.Machine

/-- One step is one rising clock edge (R70). -/
def step (s : State) : Host.Outcome State Fault Refusal := clockEdge s

/-- `s` with the command word given by the low `nbits` bits of `w` presented at the next edge as a CMD write (log 15): the
block fetches no instructions (10_state.md R21), a command is one host write to CMD (R22). -/
def State.withFetchWord (s : State) (nbits w : Nat) : State := placeCommand s (BitVec.ofNat 32 (w % 2 ^ nbits))

end Sys2Proof.Machine
end

