-- ==== Sys2Proof/Machine/Assembly.lean ====
section
/-! DEFINITION. The host assembly and its pseudo-instructions as lists of host accesses (spec 30_encoding.md R90, R91), and a
host that runs them on the machine, one access per clock edge (95_test_vectors.md, conventions; log 17). -/

namespace Sys2Proof.Machine

/-- Which string `setstr` writes. -/
inductive StringName where
  | fam | grp | dev
  deriving DecidableEq, Repr

/-- The LEN, D0 and D1 registers of a string (R20). -/
def StringName.registers : StringName → Reg × Reg × Reg
  | .fam => (.famLen, .famD0, .famD1)
  | .grp => (.grpLen, .grpD0, .grpD1)
  | .dev => (.devLen, .devD0, .devD1)

/-- The host assembly (R90, R91). -/
inductive HostOp where
  /-- `wr REG, value` -/
  | wr (r : Reg) (v : Word)
  /-- `rd REG` -/
  | rd (r : Reg)
  /-- `poll`: repeats `rd STATUS` until bit 0 reads 0 -/
  | poll
  /-- `encode.on`, `encode.off` -/
  | encode (on : Bool)
  /-- `expand` -/
  | expand
  /-- `compile` -/
  | compile
  /-- `transmit` -/
  | transmit
  /-- `send.on`, `send.off` -/
  | send (on : Bool)
  /-- `setproto n` -/
  | setproto (n : Int)
  /-- `setrepeat n` -/
  | setrepeat (n : Int)
  /-- `setstr FAM|GRP|DEV, "text"` -/
  | setstr (x : StringName) (text : List Byte)
  deriving DecidableEq, Repr

/-- A number ARG can hold as 32-bit two's complement (R26, R91). -/
def fitsArg (n : Int) : Bool := -2 ^ 31 ≤ n && n < 2 ^ 31

/-- The checks on a line of host assembly: `setproto` and `setrepeat` take a number ARG can hold, `setstr` a text its buffer can
hold. -/
def HostOp.wf : HostOp → Bool
  | .setproto n => fitsArg n
  | .setrepeat n => fitsArg n
  | .setstr _ text => text.length ≤ strCap
  | .wr _ _ | .rd _ | .poll | .encode _ | .expand | .compile | .transmit | .send _ => true

/-- Up to four bytes as a data register, the first in the low byte, unused bytes 0 (R64, R91). -/
def packBytes : List Byte → Word
  | [] => 0
  | b :: bs => packBytes bs <<< 8 ||| b.setWidth 32

/-- `MemWrite(offset(REG), 4, value)` (R90). -/
def writeTo (r : Reg) (v : Word) : HostAccess := .write r.offset v

/-- The host accesses a line stands for; for `poll`, those of one of its turns (R90, R91). -/
def HostOp.accesses : HostOp → List HostAccess
  | .wr r v => [writeTo r v]
  | .rd r => [.read r.offset]
  | .poll => [.read Reg.status.offset]
  | .encode on => [writeTo .cmd (if on then 0x101 else 0x001)]
  | .expand => [writeTo .cmd 0x002]
  | .compile => [writeTo .cmd 0x003]
  | .transmit => [writeTo .cmd 0x004]
  | .send on => [writeTo .cmd (if on then 0x105 else 0x005)]
  | .setproto n => [writeTo .arg (BitVec.ofInt 32 n), writeTo .cmd 0x006]
  | .setrepeat n => [writeTo .arg (BitVec.ofInt 32 n), writeTo .cmd 0x007]
  | .setstr x text =>
    [ writeTo x.registers.1 (BitVec.ofNat 32 text.length),
      writeTo x.registers.2.1 (packBytes (text.take 4)),
      writeTo x.registers.2.2 (packBytes ((text.drop 4).take 4)) ]

/-- One edge at which the host makes this access, whatever else was waiting at the port. -/
def accessEdge (s : State) (a : HostAccess) : Host.Outcome State Fault Refusal :=
  step { s with inputs := [{ rst := false, access := some a }] }

/-- Accesses at consecutive edges. -/
def accessEdges : List HostAccess → State → Host.Outcome State Fault Refusal
  | [], s => .next s
  | a :: rest, s =>
    match accessEdge s a with
    | .next t => accessEdges rest t
    | .fault r => .fault r
    | .refused r => .refused r

/-- Bit 0 of the word last read is 0 (R90). -/
def readsIdle (s : State) : Bool :=
  match s.reply with
  | some w => !w.getLsbD 0
  | none => false

/-- `poll`, giving up after `fuel` turns (log 17). -/
def pollEdges : Nat → State → Host.Outcome State Fault Refusal
  | 0, s => .next s
  | fuel + 1, s =>
    match accessEdge s (.read Reg.status.offset) with
    | .next t => if readsIdle t then .next t else pollEdges fuel t
    | .fault r => .fault r
    | .refused r => .refused r

/-- One line of host assembly, `poll` with `fuel` turns. -/
def runHostOp (fuel : Nat) (o : HostOp) (s : State) : Host.Outcome State Fault Refusal :=
  match o with
  | .poll => pollEdges fuel s
  | .wr _ _ | .rd _ | .encode _ | .expand | .compile | .transmit | .send _ | .setproto _ | .setrepeat _ | .setstr _ _ =>
    accessEdges o.accesses s

/-- A host program, line after line. -/
def runProgram (fuel : Nat) : List HostOp → State → Host.Outcome State Fault Refusal
  | [], s => .next s
  | o :: rest, s =>
    match runHostOp fuel o s with
    | .next t => runProgram fuel rest t
    | .fault r => .fault r
    | .refused r => .refused r

end Sys2Proof.Machine
end

