-- ==== Sys2Proof/Machine/Train.lean ====
section
/-! DEFINITION. What a transmission puts on `tx_out`, read off the states of the machine: the segments begun, their list as a
value, and the clock edges they take (spec 43_transmitter.md R175, R177, R183). -/

namespace Sys2Proof.Machine

/-- One `drive(level)` followed by one `hold(dur(units))` (R16, R177). -/
structure Segment where
  level : Bool
  units : Byte
  deriving DecidableEq, Repr

/-- The two segments of WF[i] (R177). -/
def waveSegments (p : Params) (s : State) (i : Nat) : List Segment :=
  [ { level := firstLevel (s.proto p), units := highCount (wfEntry p s i) },
    { level := secondLevel (s.proto p), units := lowCount (wfEntry p s i) } ]

/-- One pass over the waveform sequence (R16). -/
def frameOf (p : Params) (s : State) : List Segment := (List.range s.wfLen.toNat).flatMap (waveSegments p s)

/-- `train(WF, WF_LEN, P, R)` with R = REPEAT: the frames back to back (R177, R178). -/
def train (p : Params) (s : State) : List Segment := (List.replicate s.repeatCount.toNat (frameOf p s)).flatten

/-- The cycles a list of segments takes, with no gap between them (R177, R179). -/
def cyclesOf (p : Params) (q : Protocol) (l : List Segment) : Nat := (l.map fun g => dur p q g.units).sum

/-- `T = REPEAT · Σ_{i<WF_LEN} (dur(WF[i].high) + dur(WF[i].low))` (R175). -/
def transmissionCycles (p : Params) (s : State) : Nat := s.repeatCount.toNat * cyclesOf p (s.proto p) (frameOf p s)

/-- The segment the sequencer's position stands at. -/
def currentSegment (p : Params) (s : State) : Segment := { level := segmentLevel p s, units := segmentCount p s }

/-- A segment ends, or the start latency runs out, at the next sequencer step. -/
def segmentDue (p : Params) (s : State) : Bool :=
  s.startLeft == 1 || (s.startLeft == 0 && holdDown p s.holdLeft == 0)

/-- The drives of one sequencer step from `s` to `t`: one when a segment begins, "a drive that sets TX_OUT to the value it
already has is still a drive event" (R183). -/
def stepDrives (p : Params) (s t : State) : List Segment := if segmentDue p s && t.busy then [currentSegment p t] else []

/-- The drives of `start()` itself: the first segment, when there is no start latency (R171). -/
def startDrives (p : Params) (t : State) : List Segment :=
  if t.busy && t.startLeft == 0 then [currentSegment p t] else []

/-- `k` sequencer edges with no host access between them: the state after them and the segments begun. -/
def runSequencer (p : Params) : Nat → State → State × List Segment
  | 0, s => (s, [])
  | k + 1, s =>
    let t := sequencerEdge p s
    let r := runSequencer p k t
    (r.1, (if s.busy then stepDrives p s t else []) ++ r.2)

end Sys2Proof.Machine
end

