-- ==== Sys2Proof/Safety.lean ====
section
/-! DEFINITION. What holds of the block after any reset: the invariant every clock edge keeps (spec 10_state.md R24, R27 to R29,
R46, 60_exceptions.md R221, 43_transmitter.md R171 to R175). States outside it exist only before the first reset (R252). -/

namespace Sys2Proof.Machine

/-- While a transmission runs: the sequencer stands inside the waveform sequence, in one of the frames still to send, either
waiting for the first segment or inside one, driving its level (R46, R171 to R174). -/
structure InProgress (s : State) : Prop where
  /-- The sequence is neither empty nor longer than its buffer (R170, R186). -/
  length : 1 ≤ s.wfLen.toNat ∧ s.wfLen.toNat ≤ wfCap
  /-- WF_IDX is inside the sequence (R174). -/
  index : s.wfIdx.toNat < s.wfLen.toNat
  /-- REP_LEFT counts the current frame (R46). -/
  frames : 1 ≤ s.repLeft.toNat ∧ s.repLeft.toNat ≤ s.repeatCount.toNat
  /-- STATUS still shows the command that started it (R25). -/
  accepted : s.result = ResultCode.ok.toByte ∧ (s.lastOp = 0x04 ∨ s.lastOp = 0x05)
  /-- Before the first segment the position is the first one (R171). -/
  waiting : 0 < s.startLeft → s.startLeft ≤ Config.build.txStartLat ∧ s.repLeft = s.repeatCount ∧ s.wfIdx = 0 ∧
    s.phase = false ∧ s.holdLeft = 0
  /-- Inside a segment its level is on the pin and its cycles count down (R171, R173). -/
  driving : s.startLeft = 0 → 1 ≤ s.holdLeft ∧
    s.holdLeft ≤ dur Config.build (s.proto Config.build) (segmentCount Config.build s) ∧
    s.txOut = segmentLevel Config.build s

/-- The invariant. -/
structure Inv (s : State) : Prop where
  /-- "Values 0 and 7 never occur" (R27). -/
  protocol_legal : 1 ≤ s.protocol.toNat ∧ s.protocol.toNat ≤ 6
  /-- "REPEAT is never 0" (R28). -/
  repeat_positive : 1 ≤ s.repeatCount.toNat
  /-- "Values 5..7 never occur" (R29). -/
  scheme_legal : s.scheme.toNat ≤ 4
  /-- "All other values are reserved and are never written" (R221). -/
  result_listed : ∃ c : ResultCode, s.result = c.toByte
  /-- The idle values of the sequencer (R46). -/
  at_rest : s.busy = false → s.repLeft = 0 ∧ s.wfIdx = 0 ∧ s.phase = false ∧ s.holdLeft = 0 ∧ s.startLeft = 0
  in_progress : s.busy = true → InProgress s

end Sys2Proof.Machine
end

