-- ==== Sys2Proof/WellFormed.lean ====
section
/-! DEFINITION. The CMD32 format as raw fields and the three checks a command word must pass (spec 30_encoding.md R80, R84).
An `Instr` has no ill-formed value (R85: its one operand is one bit), so the checks are about the raw fields. -/

namespace Sys2Proof

/-- The fields of the one command format, CMD32 (R80). -/
structure Cmd32 where
  /-- [7:0] -/
  op : Byte
  /-- [8] -/
  s : Bool
  /-- [31:9], reserved, must be 0 -/
  rsv : BitVec 23
  deriving DecidableEq, Repr

/-- R84: "a word whose OP is 0x00 or 0x08..0xFF" is illegal. -/
def Cmd32.opDefined (c : Cmd32) : Bool := 1 ≤ c.op.toNat && c.op.toNat ≤ 7

/-- R84: "a word with any RSV bit set" is illegal. -/
def Cmd32.reservedClear (c : Cmd32) : Bool := c.rsv == 0

/-- R84: "a word with S = 1 and an OP other than 0x01 or 0x05" is illegal. -/
def Cmd32.statusAllowed (c : Cmd32) : Bool := !c.s || c.op == 0x01 || c.op == 0x05

/-- The raw fields form a legal command word. -/
def Cmd32.wf (c : Cmd32) : Bool := c.opDefined && c.reservedClear && c.statusAllowed

/-- The fields of a word (R80). -/
def Cmd32.ofWord (w : Word) : Cmd32 :=
  { op := w.extractLsb' 0 8, s := w.getLsbD 8, rsv := w.extractLsb' 9 23 }

/-- The word of the fields, bit for bit as R81 lays them out. -/
def Cmd32.toWord (c : Cmd32) : Word := c.rsv ++ BitVec.ofBool c.s ++ c.op

/-- The fields R82 gives a command. -/
def Instr.fields : Instr → Cmd32
  | .encode s => { op := 0x01, s := s, rsv := 0 }
  | .expand => { op := 0x02, s := false, rsv := 0 }
  | .compile => { op := 0x03, s := false, rsv := 0 }
  | .transmit => { op := 0x04, s := false, rsv := 0 }
  | .send s => { op := 0x05, s := s, rsv := 0 }
  | .setProtocol => { op := 0x06, s := false, rsv := 0 }
  | .setRepeat => { op := 0x07, s := false, rsv := 0 }

/-- A command is well formed when its fields are. -/
def Instr.wf (i : Instr) : Bool := i.fields.wf

end Sys2Proof
end

