-- ==== Sys2Proof/Certificates/Slice0/Obligations.lean ====
section
/-! DEFINITION. The statements for the provers, from the numbered rules of spec/. Each docstring names the rule it formalises. -/

open Sys2Proof Sys2Proof.Machine

/-! ## The words the statements use -/

namespace Sys2Proof.Machine

/-- The next edge presents no reset and this access. -/
def State.presents (s : State) (x : Option HostAccess) : Prop := s.edgeInput = { rst := false, access := x }

/-- STATUS as a command leaves it: OVERRUN cleared, LAST_OP and RESULT written, all else as it was (R83, R223). -/
def State.status (s : State) (op code : Byte) : State := { s with overrun := false, lastOp := op, result := code }

/-- ENCODE and SEND both end with this error and write nothing but STATUS (R104, R180, R223). -/
def encodingFails (s : State) (code : Byte) : Prop :=
  ∀ b : Bool, exec (.encode b) s = .next (s.status 0x01 code) ∧ exec (.send b) s = .next (s.status 0x05 code)

/-- The three strings fit their buffers (R101). -/
def State.stringsFit (s : State) : Prop := s.fam.len.toNat ≤ 8 ∧ s.grp.len.toNat ≤ 8 ∧ s.dev.len.toNat ≤ 8

/-- A byte is a decimal digit (R13). -/
def digitByte (b : Byte) : Prop := 0x30 ≤ b.toNat ∧ b.toNat ≤ 0x39

/-- A byte is the hexadecimal digit of value `v`, in either case (R13, R126). -/
def hexByte (b : Byte) (v : Nat) : Prop :=
  (v < 10 ∧ b.toNat = 0x30 + v) ∨ (10 ≤ v ∧ v < 16 ∧ (b.toNat = 0x61 + (v - 10) ∨ b.toNat = 0x41 + (v - 10)))

/-- A byte is letter number `k` of a..d, in either case (R135, R136). -/
def letterByte (b : Byte) (k : Nat) : Prop := k < 4 ∧ (b.toNat = 0x61 + k ∨ b.toNat = 0x41 + k)

/-- A buffer's string is the digit `n`, after any number of zeros: the strings R15 and R125 read as `n` in 1..4. -/
def StringBuffer.spells (f : StringBuffer) (n : Nat) : Prop :=
  1 ≤ f.len.toNat ∧ f.len.toNat ≤ 8 ∧ 1 ≤ n ∧ n ≤ 4 ∧ (∀ k, k + 1 < f.len.toNat → f.byte k = 0x30) ∧
    (f.byte (f.len.toNat - 1)).toNat = 0x30 + n

/-- The strings one of the four generators accepts (R110, R120, R125, R135). -/
def State.encodable (s : State) : Prop :=
  (s.fam.len = 0 ∧ s.grp.len = 5 ∧ s.dev.len = 5) ∨
  (s.fam.len = 0 ∧ s.grp.len = 1 ∧ s.dev.len = 1 ∧ (0x31 ≤ (s.grp.byte 0).toNat ∧ (s.grp.byte 0).toNat ≤ 0x34) ∧
    (0x31 ≤ (s.dev.byte 0).toNat ∧ (s.dev.byte 0).toNat ≤ 0x34)) ∨
  (s.fam.len = 1 ∧ (∃ v, hexByte (s.fam.byte 0) v) ∧ (∃ g, s.grp.spells g) ∧ ∃ d, s.dev.spells d) ∨
  (s.fam.len = 0 ∧ s.grp.len = 1 ∧ s.dev.len = 1 ∧ (∃ k, letterByte (s.grp.byte 0) k) ∧
    (0x31 ≤ (s.dev.byte 0).toNat ∧ (s.dev.byte 0).toNat ≤ 0x33))

/-- How many of the first `n` symbols of a CW_DATA word are symbols (R153). -/
def validBefore (d : Word) (n : Nat) : Nat := (List.range n).countP fun i => symbolAt d i != 0b01

/-- An edge with no reset and no host write: idle, or a read. -/
def EdgeInput.quiet (e : EdgeInput) : Prop := e.rst = false ∧ (e.access = none ∨ ∃ a, e.access = some (.read a))

/-- The buffer a name of host assembly stands for. -/
def State.string (s : State) : StringName → StringBuffer
  | .fam => s.fam
  | .grp => s.grp
  | .dev => s.dev

/-- The state with one string buffer replaced. -/
def State.withString (s : State) (x : StringName) (f : StringBuffer) : State :=
  match x with
  | .fam => { s with fam := f }
  | .grp => { s with grp := f }
  | .dev => { s with dev := f }

/-- What the registers of one field read as, by offset (R20, R68): the field, zero-extended; the 33 entries of WF_DATA apart. -/
def State.registerWords (s : State) : List (Addr × Word) :=
  [ (0x008, s.arg), (0x00C, s.protocol.setWidth 32), (0x010, s.repeatCount.setWidth 32),
    (0x014, s.fam.len.setWidth 32), (0x018, s.fam.d0), (0x01C, s.fam.d1),
    (0x020, s.grp.len.setWidth 32), (0x024, s.grp.d0), (0x028, s.grp.d1),
    (0x02C, s.dev.len.setWidth 32), (0x030, s.dev.d0), (0x034, s.dev.d1),
    (0x038, s.cwLen.setWidth 32), (0x03C, s.cwData), (0x040, s.binLen.setWidth 32), (0x044, s.binData),
    (0x048, s.wfLen.setWidth 32), (0x04C, s.scheme.setWidth 32) ]

/-- What a write of `v` leaves, by the offset of each read/write register (R20, R69), the 33 entries of WF_DATA apart. -/
def State.writtenStates (s : State) (v : Word) : List (Addr × State) :=
  [ (0x008, { s with arg := v }),
    (0x014, { s with fam := { s.fam with len := v.setWidth 8 } }),
    (0x018, { s with fam := { s.fam with d0 := v } }),
    (0x01C, { s with fam := { s.fam with d1 := v } }),
    (0x020, { s with grp := { s.grp with len := v.setWidth 8 } }),
    (0x024, { s with grp := { s.grp with d0 := v } }),
    (0x028, { s with grp := { s.grp with d1 := v } }),
    (0x02C, { s with dev := { s.dev with len := v.setWidth 8 } }),
    (0x030, { s with dev := { s.dev with d0 := v } }),
    (0x034, { s with dev := { s.dev with d1 := v } }),
    (0x038, { s with cwLen := v.setWidth 8 }),
    (0x03C, { s with cwData := v }),
    (0x040, { s with binLen := v.setWidth 8 }),
    (0x044, { s with binData := v }),
    (0x048, { s with wfLen := v.setWidth 8 }) ]

/-- The reset column of R20. -/
def resetWord : Reg → Word
  | .protocol => 0x00000001
  | .repeatCount => 0x0000000A
  | .pUnit => 0x0000015E
  | .pSync => 0x00001F01
  | .pZero => 0x00000301
  | .pOne => 0x00000103
  | _ => 0

end Sys2Proof.Machine

/-! ## Command words -/

/-- The legal words of 95_test_vectors.md ("Legal words: …") decode to their commands. -/
def Obligations.SpecCommandWordsDecode : Prop :=
  decode 0x001 = .ok (.encode false) ∧ decode 0x101 = .ok (.encode true) ∧ decode 0x002 = .ok .expand ∧
    decode 0x003 = .ok .compile ∧ decode 0x004 = .ok .transmit ∧ decode 0x005 = .ok (.send false) ∧
    decode 0x105 = .ok (.send true) ∧ decode 0x006 = .ok .setProtocol ∧ decode 0x007 = .ok .setRepeat

/-- Decode and encode agree in both directions: each command has exactly one word (R80, R81, R82, R89). -/
def Obligations.EachCommandHasExactlyOneWord : Prop := ∀ (w : Word) (i : Instr), decode w = .ok i ↔ w = encode i

/-- R82: "A command word is legal iff it matches one row under that row's mask"; no word matches two rows. -/
def Obligations.DecodesExactlyWhenARowMatches : Prop :=
  ∀ w : Word, ((∃ i, decode w = .ok i) ↔ legal w = true) ∧ (opcodeMap.filter fun r => r.hits w).length ≤ 1

/-- R84: the illegal words are those of its three classes, and an illegal word's only effects are those of `issue` before the
check and RESULT = E_ILLEGAL_CMD. -/
def Obligations.IllegalWordsOnlyWriteStatus : Prop :=
  ∀ w : Word,
    ((∃ e, decode w = .error e) ↔
      (w &&& 0xFF = 0 ∨ 0x08 ≤ (w &&& 0xFF).toNat) ∨ w &&& 0xFFFFFE00 ≠ 0 ∨
        (w.getLsbD 8 = true ∧ w &&& 0xFF ≠ 1 ∧ w &&& 0xFF ≠ 5)) ∧
    ((∃ e, decode w = .error e) → ∀ s : State, issue s w = .next (s.status (w.setWidth 8) 0x01))

/-! ## The edge and the port -/

/-- At an edge without a reset a write, whatever its address and value, is `MemWrite` on the state the sequencer left (R69, R70).
`MemWrite` to CMD's slot with BUSY = 0 is `issue` (R69), so such an edge runs the command its word decodes to, and an illegal
word writes OVERRUN, LAST_OP and RESULT only (R83, R84). That an edge's access is taken from State.inputs is log 1. -/
def Obligations.StepRunsTheAcceptedCommand : Prop :=
  (∀ (s : State) (a : Addr) (w : Word), s.busy = false → regAt a = some .cmd → memWrite s a w = issue s w) ∧
  ∀ (s : State) (a : Addr) (w : Word), s.presents (some (.write a w)) →
    step s = memWrite s.atAccess a w ∧
    (regAt a = some .cmd → s.atAccess.busy = false →
      (∀ i, decode w = .ok i → step s = exec i s.atAccess) ∧
      ((∃ e, decode w = .error e) → step s = .next (s.atAccess.status (w.setWidth 8) 0x01)))

/-- The very next step after `withFetchWord` runs the placed command (the model's convention, log 15). -/
def Obligations.PlacedCommandRunsAtTheNextStep : Prop :=
  ∀ (s : State) (i : Instr),
    step (s.withFetchWord 32 (encode i).toNat) = exec i { (if s.busy then finish s else s) with reply := none }

/-- No edge and no command stops the machine. This is the model's deduction, log 11 (from R220, R62 and R84, none of which says
it whole): a command refused with an error code completes too, in a next state that holds the code. -/
def Obligations.EveryEdgeAndCommandCompletes : Prop :=
  (∀ s : State, ∃ t, step s = .next t) ∧ ∀ (i : Instr) (s : State), ∃ t, exec i s = .next t

/-- With `rst` = 1 every piece of the block's state, whatever it was, takes its reset value, and the host access of that edge has
no effect and reads 0 (R250, R251). That the later inputs stay in the list is the model's choice, log 1; that the answer stands
in `reply`, and that `reply` is none where no read was made, is the model's choice, log 2. -/
def Obligations.ResetEdgeLoadsTheResetState : Prop :=
  ∀ (s : State) (x : Option HostAccess) (rest : List EdgeInput),
    s.inputs = { rst := true, access := x } :: rest →
      ∃ r : Option Word, step s = .next { State.reset with inputs := rest, reply := r } ∧
        ((∃ a, x = some (.read a)) → r = some 0) ∧ ((∀ a, x ≠ some (.read a)) → r = none)

/-- R51: what every register reads after reset, and the state no register shows. -/
def Obligations.RegistersReadTheirResetValues : Prop :=
  (∀ (p : Params) (r : Reg), memRead p State.reset r.offset = resetWord r) ∧ State.reset.holdLeft = 0 ∧
    State.reset.startLeft = 0 ∧ State.reset.txOut = false ∧ State.reset.busy = false

/-- A read returns the register as it stands after the sequencer step of its edge (R66, R70); against the same edge with no access,
it changes nothing but the port's answer (R67). That the edge's input leaves the list is the model's choice, log 1; that the
answer stands in `reply`, and that `reply` is none after an edge without a read, is the model's choice, log 2. -/
def Obligations.ReadsSeeTheEdgeAndChangeNothing : Prop :=
  ∀ (s : State) (a : Addr) (rest : List EdgeInput),
    step { s with inputs := { rst := false, access := none } :: rest } =
      .next (sequencerEdge Config.build { s with inputs := rest, reply := none }) ∧
    step { s with inputs := { rst := false, access := some (.read a) } :: rest } =
      .next { sequencerEdge Config.build { s with inputs := rest, reply := none } with
        reply := some (memRead Config.build (sequencerEdge Config.build { s with inputs := rest, reply := none }) a) }

/-- R262: a write that finds BUSY = 1 changes nothing but OVERRUN, whatever its address and value; a read is served as always
(R66, R67). That an edge's access is taken from `inputs` is the model's choice, log 1; that a read's answer stands in `reply` is
the model's choice, log 2. -/
def Obligations.BusyDropsEveryWrite : Prop :=
  ∀ (s : State) (a : Addr), s.atAccess.busy = true →
    (∀ v : Word, s.presents (some (.write a v)) → step s = .next { s.atAccess with overrun := true }) ∧
    (s.presents (some (.read a)) → step s = .next { s.atAccess with reply := some (memRead Config.build s.atAccess a) })

/-- R63: a write to a read/write register replaces its writable bits and is read back; every other address reads as before, and
the state no address shows is unchanged. Each register's write stores into the one field the commands read (R69), and into
nothing else. -/
def Obligations.WrittenRegistersReadBack : Prop :=
  ∀ (s : State) (v : Word), s.busy = false →
    (∀ (p : Params) (a : Addr) (r : Reg), regAt a = some r → r.access = .readWrite →
      ∃ t, memWrite s a v = .next t ∧ memRead p t a = v &&& writableBits r ∧
        (∀ b : Addr, regAt b ≠ some r → memRead p t b = memRead p s b) ∧
        t.holdLeft = s.holdLeft ∧ t.startLeft = s.startLeft ∧ t.inputs = s.inputs ∧ t.reply = s.reply) ∧
    (∀ x ∈ s.writtenStates v, memWrite s x.1 v = .next x.2) ∧
    ∀ i : Fin 33, memWrite s (BitVec.ofNat 9 (0x100 + 4 * i.val)) v =
      .next { s with wfData := s.wfData.set i (v.setWidth 16) }

/-- R62: the reserved offsets are 0x068..0x0FC and 0x184..0x1FC; they read 0, and a write to one is ignored while BUSY = 0 and
sets OVERRUN while BUSY = 1. -/
def Obligations.ReservedOffsetsReadZeroAndIgnoreWrites : Prop :=
  ∀ a : Addr,
    (regAt a = none ↔ (0x068 ≤ a.toNat ∧ a.toNat < 0x100) ∨ 0x184 ≤ a.toNat) ∧
    (regAt a = none → ∀ (p : Params) (s : State) (v : Word),
      memRead p s a = 0 ∧ (s.busy = false → memWrite s a v = .next s) ∧
        (s.busy = true → memWrite s a v = .next { s with overrun := true }))

/-- Writes to the read-only registers of R20 are ignored while BUSY = 0 (R67), and CMD reads 0 (R22). -/
def Obligations.ReadOnlyRegistersIgnoreWrites : Prop :=
  ∀ (p : Params) (s : State) (a : Addr) (r : Reg) (v : Word), regAt a = some r →
    (r.access = .readOnly → s.busy = false → memWrite s a v = .next s) ∧ (r = .cmd → memRead p s a = 0)

/-- R61, R65: the low two address bits are ignored by reads and writes. -/
def Obligations.LowAddressBitsAreIgnored : Prop :=
  ∀ (a b : Addr), a.toNat / 4 = b.toNat / 4 →
    ∀ (p : Params) (s : State) (v : Word), memRead p s a = memRead p s b ∧ memWrite s a v = memWrite s b v

/-- Each register of R20 is reached at its offset and, low bits aside, nowhere else. -/
def Obligations.EachRegisterHasOneAddress : Prop :=
  (∀ r : Reg, regAt r.offset = some r) ∧ ∀ (a : Addr) (r : Reg), regAt a = some r → a.toNat / 4 * 4 = r.offset.toNat

/-- Writes to every address but CMD's are idempotent (R67). -/
def Obligations.RegisterWritesAreIdempotent : Prop :=
  ∀ (s : State) (a : Addr) (v : Word), regAt a ≠ some .cmd →
    ∃ t, memWrite s a v = .next t ∧ memWrite t a v = .next t

/-- R23: the fields of STATUS, bit by bit. -/
def Obligations.StatusWordLayout : Prop :=
  ∀ (p : Params) (s : State) (k : Nat), k < 32 →
    (memRead p s 0x004).getLsbD k =
      if k = 0 then s.busy else if k = 1 then s.overrun else if k < 8 then false
      else if k < 16 then s.result.getLsbD (k - 8) else if k < 24 then s.lastOp.getLsbD (k - 16) else false

/-- Every register reads the field the commands use: the registers of one field whole (R26 to R31, R34 to R41, R68), and the
fields of TX_REP_LEFT, TX_POS, PUNIT, PSYNC, PZERO and PONE bit by bit (R45, R48, R49). -/
def Obligations.ViewRegisterLayouts : Prop :=
  (∀ (p : Params) (s : State), (∀ x ∈ s.registerWords, memRead p s x.1 = x.2) ∧
    ∀ i : Fin 33, memRead p s (BitVec.ofNat 9 (0x100 + 4 * i.val)) = s.wfData[i].setWidth 32) ∧
  ∀ (p : Params) (s : State) (k : Nat), k < 32 →
    (memRead p s 0x050).getLsbD k = (if k < 31 then s.repLeft.getLsbD k else false) ∧
    (memRead p s 0x054).getLsbD k =
      (if k < 6 then s.wfIdx.getLsbD k else if k = 8 then s.phase else if k = 16 then s.txOut else false) ∧
    (memRead p s 0x058).getLsbD k =
      (if k < 16 then (s.proto p).pulseUnit.getLsbD k else if k = 31 then (s.proto p).inverted else false) ∧
    ∀ (a : Addr) (w : Waveform),
      (a = 0x05C ∧ w = (s.proto p).syncBit) ∨ (a = 0x060 ∧ w = (s.proto p).zeroBit) ∨ (a = 0x064 ∧ w = (s.proto p).oneBit) →
        (memRead p s a).getLsbD k =
          (if k < 8 then w.high.getLsbD k else if k < 16 then w.low.getLsbD (k - 8) else false)

/-! ## ENCODE -/

/-- R110, R112, R113: the Type A codeword, symbol by symbol, and the frame of ENCODE (R103). -/
def Obligations.TypeACodewordAndFrame : Prop :=
  ∀ (b : Bool) (s : State), s.fam.len = 0 → s.grp.len = 5 → s.dev.len = 5 →
    ∃ d : Word,
      exec (.encode b) s = .next { s.status 0x01 0x00 with cwLen := 12, cwData := d, scheme := 1 } ∧
      (∀ k, k < 5 → symbolAt d k = if s.grp.byte k = 0x30 then 0b10 else 0b00) ∧
      (∀ k, k < 5 → symbolAt d (5 + k) = if s.dev.byte k = 0x30 then 0b10 else 0b00) ∧
      symbolAt d 10 = (if b then 0b00 else 0b10) ∧ symbolAt d 11 = (if b then 0b10 else 0b00) ∧
      ∀ k, 12 ≤ k → k < 16 → symbolAt d k = 0b00

/-- R121: the Type B codeword, symbol by symbol, and the frame of ENCODE (R103). -/
def Obligations.TypeBCodewordAndFrame : Prop :=
  ∀ (b : Bool) (s : State) (g d : Nat), s.fam.len = 0 → s.grp.len = 1 → s.dev.len = 1 →
    1 ≤ g → g ≤ 4 → (s.grp.byte 0).toNat = 0x30 + g → 1 ≤ d → d ≤ 4 → (s.dev.byte 0).toNat = 0x30 + d →
    ∃ w : Word,
      exec (.encode b) s = .next { s.status 0x01 0x00 with cwLen := 12, cwData := w, scheme := 2 } ∧
      (∀ k, k < 4 → symbolAt w k = if k + 1 = g then 0b00 else 0b10) ∧
      (∀ k, k < 4 → symbolAt w (4 + k) = if k + 1 = d then 0b00 else 0b10) ∧
      (∀ k, 8 ≤ k → k < 11 → symbolAt w k = 0b10) ∧ symbolAt w 11 = (if b then 0b10 else 0b00) ∧
      ∀ k, 12 ≤ k → k < 16 → symbolAt w k = 0b00

/-- R126 to R129: the Type C codeword, symbol by symbol, and the frame of ENCODE (R103). Symbols 4..7 are UNVERIFIED against any
receiver (R130, log 10). -/
def Obligations.TypeCCodewordAndFrame : Prop :=
  ∀ (b : Bool) (s : State) (v g d : Nat), s.fam.len = 1 → hexByte (s.fam.byte 0) v → s.grp.spells g → s.dev.spells d →
    ∃ w : Word,
      exec (.encode b) s = .next { s.status 0x01 0x00 with cwLen := 12, cwData := w, scheme := 3 } ∧
      (∀ k, k < 4 → symbolAt w k = if v.testBit k then 0b10 else 0b00) ∧
      (∀ k, k < 2 → symbolAt w (4 + k) = if (d - 1).testBit k then 0b00 else 0b10) ∧
      (∀ k, k < 2 → symbolAt w (6 + k) = if (g - 1).testBit k then 0b00 else 0b10) ∧
      symbolAt w 8 = 0b00 ∧ symbolAt w 9 = 0b10 ∧ symbolAt w 10 = 0b10 ∧ symbolAt w 11 = (if b then 0b10 else 0b00) ∧
      ∀ k, 12 ≤ k → k < 16 → symbolAt w k = 0b00

/-- R136 to R138: the Type D codeword, symbol by symbol, and the frame of ENCODE (R103). -/
def Obligations.TypeDCodewordAndFrame : Prop :=
  ∀ (b : Bool) (s : State) (g d : Nat), s.fam.len = 0 → s.grp.len = 1 → s.dev.len = 1 →
    letterByte (s.grp.byte 0) g → 1 ≤ d → d ≤ 3 → (s.dev.byte 0).toNat = 0x30 + d →
    ∃ w : Word,
      exec (.encode b) s = .next { s.status 0x01 0x00 with cwLen := 12, cwData := w, scheme := 4 } ∧
      (∀ k, k < 4 → symbolAt w k = if k = g then 0b11 else 0b10) ∧
      (∀ k, k < 3 → symbolAt w (4 + k) = if k + 1 = d then 0b11 else 0b10) ∧
      (∀ k, 7 ≤ k → k < 10 → symbolAt w k = 0b00) ∧
      symbolAt w 10 = (if b then 0b11 else 0b00) ∧ symbolAt w 11 = (if b then 0b00 else 0b11) ∧
      ∀ k, 12 ≤ k → k < 16 → symbolAt w k = 0b00

/-- R101: a length above 8 is E_LEN, before anything else is looked at. -/
def Obligations.TooLongStringsAreLengthErrors : Prop :=
  ∀ s : State, 8 < s.fam.len.toNat ∨ 8 < s.grp.len.toNat ∨ 8 < s.dev.len.toNat → encodingFails s 0x02

/-- The dispatch errors of R102: E_DEVICE_NOT_INT before any group check, and E_UNSUPPORTED for every other shape. -/
def Obligations.DispatchErrors : Prop :=
  ∀ s : State, s.stringsFit → s.fam.len = 0 →
    (s.grp.len = 1 → s.dev.len = 1 → ¬digitByte (s.dev.byte 0) → encodingFails s 0x11) ∧
    (¬(1 < s.grp.len.toNat ∧ 1 < s.dev.len.toNat) → ¬(s.grp.len = 1 ∧ s.dev.len = 1) → encodingFails s 0x10)

/-- R111: "Only the lengths are checked", the group's first, "whatever the device is"; any bytes of the right lengths are
accepted. -/
def Obligations.TypeALengthErrors : Prop :=
  ∀ s : State, s.stringsFit → s.fam.len = 0 → 1 < s.grp.len.toNat → 1 < s.dev.len.toNat →
    (s.grp.len ≠ 5 → encodingFails s 0x20) ∧ (s.grp.len = 5 → s.dev.len ≠ 5 → encodingFails s 0x21) ∧
    (s.grp.len = 5 → s.dev.len = 5 → ∀ b, ∃ t, exec (.encode b) s = .next t ∧ t.result = 0x00)

/-- R120: the group's range is checked first. -/
def Obligations.TypeBRangeErrors : Prop :=
  ∀ s : State, s.fam.len = 0 → s.grp.len = 1 → s.dev.len = 1 → digitByte (s.grp.byte 0) → digitByte (s.dev.byte 0) →
    ((s.grp.byte 0).toNat < 0x31 ∨ 0x34 < (s.grp.byte 0).toNat → encodingFails s 0x30) ∧
    (0x31 ≤ (s.grp.byte 0).toNat → (s.grp.byte 0).toNat ≤ 0x34 →
      (s.dev.byte 0).toNat < 0x31 ∨ 0x34 < (s.dev.byte 0).toNat → encodingFails s 0x31)

/-- R125: family, then group, then device; integers in 1..4 with leading zeros are accepted, nothing else is. -/
def Obligations.TypeCErrors : Prop :=
  ∀ s : State, s.stringsFit → s.fam.len ≠ 0 →
    (¬(s.fam.len = 1 ∧ ∃ v, hexByte (s.fam.byte 0) v) → encodingFails s 0x40) ∧
    ((s.fam.len = 1 ∧ ∃ v, hexByte (s.fam.byte 0) v) → (¬∃ g, s.grp.spells g) → encodingFails s 0x41) ∧
    ((s.fam.len = 1 ∧ ∃ v, hexByte (s.fam.byte 0) v) → (∃ g, s.grp.spells g) → (¬∃ d, s.dev.spells d) →
      encodingFails s 0x42) ∧
    ((s.fam.len = 1 ∧ ∃ v, hexByte (s.fam.byte 0) v) → (∃ g, s.grp.spells g) → (∃ d, s.dev.spells d) →
      ∀ b, ∃ t, exec (.encode b) s = .next t ∧ t.result = 0x00)

/-- R135: the letter, then the device. -/
def Obligations.TypeDErrors : Prop :=
  ∀ s : State, s.fam.len = 0 → s.grp.len = 1 → s.dev.len = 1 → ¬digitByte (s.grp.byte 0) → digitByte (s.dev.byte 0) →
    ((¬∃ k, letterByte (s.grp.byte 0) k) → encodingFails s 0x50) ∧
    ((∃ k, letterByte (s.grp.byte 0) k) → (s.dev.byte 0).toNat < 0x31 ∨ 0x33 < (s.dev.byte 0).toNat →
      encodingFails s 0x51)

/-- SEND fails exactly when ENCODE does, "with that code and nothing else changes" (R180, R182). -/
def Obligations.SendFailsWithTheEncodersError : Prop :=
  ∀ (b : Bool) (s t : State), exec (.encode b) s = .next t →
    (t.result ≠ 0x00 → exec (.send b) s = .next (s.status 0x05 t.result)) ∧
    (t.result = 0x00 → ∃ u, exec (.send b) s = .next u ∧ u.result = 0x00 ∧ u.busy = true)

/-- R105: every successful ENCODE yields exactly 12 symbols, never code 0b01, with 0b00 after them. -/
def Obligations.EncodedSymbolsAreValid : Prop :=
  ∀ (b : Bool) (s t : State), exec (.encode b) s = .next t → t.result = 0x00 →
    t.cwLen = 12 ∧ (∀ k, k < 12 → symbolAt t.cwData k ≠ 0b01) ∧ (∀ k, 12 ≤ k → k < 16 → symbolAt t.cwData k = 0b00) ∧
      1 ≤ t.scheme.toNat ∧ t.scheme.toNat ≤ 4

/-- Bytes at index ≥ LEN are ignored, and nothing but the strings and S is read (R31, R100): two states with the same strings
get the same codeword, scheme and result. -/
def Obligations.EncodeReadsOnlyTheStrings : Prop :=
  ∀ (b : Bool) (s u t v : State),
    s.fam.len = u.fam.len → s.grp.len = u.grp.len → s.dev.len = u.dev.len →
    (∀ k, k < s.fam.len.toNat → s.fam.byte k = u.fam.byte k) → (∀ k, k < s.grp.len.toNat → s.grp.byte k = u.grp.byte k) →
    (∀ k, k < s.dev.len.toNat → s.dev.byte k = u.dev.byte k) →
    exec (.encode b) s = .next t → exec (.encode b) u = .next v →
      t.result = v.result ∧
        (t.result = 0x00 → t.cwData = v.cwData ∧ t.cwLen = v.cwLen ∧ t.scheme = v.scheme)

/-! ## EXPAND and COMPILE -/

/-- R151 to R154: EXPAND's bits, its length, its cleared tail, and its frame. -/
def Obligations.ExpandResultAndFrame : Prop :=
  ∀ s : State, s.cwLen.toNat ≤ 16 →
    ∃ d : Word,
      exec .expand s = .next { s.status 0x02 0x00 with
        binLen := BitVec.ofNat 8 (2 * validBefore s.cwData s.cwLen.toNat), binData := d } ∧
      (∀ i, i < s.cwLen.toNat → symbolAt s.cwData i ≠ 0b01 →
        d.getLsbD (2 * validBefore s.cwData i) = (symbolAt s.cwData i).getLsbD 0 ∧
        d.getLsbD (2 * validBefore s.cwData i + 1) = (symbolAt s.cwData i).getLsbD 1) ∧
      ∀ k, 2 * validBefore s.cwData s.cwLen.toNat ≤ k → d.getLsbD k = false

/-- R155: on a codeword of valid symbols EXPAND is the identity with the tail cleared. -/
def Obligations.ExpandIsIdentityOnValidCodewords : Prop :=
  ∀ s : State, s.cwLen.toNat ≤ 16 → (∀ i, i < s.cwLen.toNat → symbolAt s.cwData i ≠ 0b01) →
    ∃ d : Word,
      exec .expand s = .next { s.status 0x02 0x00 with binLen := BitVec.ofNat 8 (2 * s.cwLen.toNat), binData := d } ∧
      ∀ k, d.getLsbD k = (decide (k < 2 * s.cwLen.toNat) && s.cwData.getLsbD k)

/-- R160 to R163: COMPILE's waveforms, the one trailing sync, the cleared tail, and its frame. -/
def Obligations.CompileResultAndFrame : Prop :=
  ∀ s : State, s.binLen.toNat ≤ 32 →
    ∃ w : Vector (BitVec 16) 33,
      exec .compile s = .next { s.status 0x03 0x00 with wfLen := s.binLen + 1, wfData := w } ∧
      ∀ i : Fin 33,
        (i.val < s.binLen.toNat → s.binData.getLsbD i.val = true →
          highCount w[i] = (s.proto Config.build).oneBit.high ∧ lowCount w[i] = (s.proto Config.build).oneBit.low) ∧
        (i.val < s.binLen.toNat → s.binData.getLsbD i.val = false →
          highCount w[i] = (s.proto Config.build).zeroBit.high ∧ lowCount w[i] = (s.proto Config.build).zeroBit.low) ∧
        (i.val = s.binLen.toNat →
          highCount w[i] = (s.proto Config.build).syncBit.high ∧ lowCount w[i] = (s.proto Config.build).syncBit.low) ∧
        (s.binLen.toNat < i.val → w[i] = 0)

/-- A length register above its buffer's capacity is E_LEN for EXPAND, COMPILE and TRANSMIT, and only STATUS is written (R221,
R223). -/
def Obligations.TooLongBuffersAreLengthErrors : Prop :=
  ∀ s : State,
    (16 < s.cwLen.toNat → exec .expand s = .next (s.status 0x02 0x02)) ∧
    (32 < s.binLen.toNat → exec .compile s = .next (s.status 0x03 0x02)) ∧
    (33 < s.wfLen.toNat → exec .transmit s = .next (s.status 0x04 0x02))

/-! ## TRANSMIT and the sequencer -/

/-- R171: what an accepted TRANSMIT starts, with and without start latency, and what it leaves alone. -/
def Obligations.TransmitStarts : Prop :=
  ∀ s : State, 1 ≤ s.wfLen.toNat → s.wfLen.toNat ≤ 33 →
    (Config.build.txStartLat = 0 → exec .transmit s = .next { s.status 0x04 0x00 with
      busy := true, repLeft := s.repeatCount, wfIdx := 0, phase := false,
      txOut := !(s.proto Config.build).inverted,
      holdLeft := max 1 ((highCount s.wfData[0]).toNat * (s.proto Config.build).pulseUnit.toNat * Config.build.ticksPerUs) }) ∧
    (0 < Config.build.txStartLat → exec .transmit s = .next { s.status 0x04 0x00 with
      busy := true, repLeft := s.repeatCount, wfIdx := 0, phase := false, startLeft := Config.build.txStartLat })

/-- R186: TRANSMIT with an empty sequence is accepted and drives nothing. -/
def Obligations.EmptyTransmitDrivesNothing : Prop := ∀ s : State, s.wfLen = 0 → exec .transmit s = .next (s.status 0x04 0x00)

/-- R173, R174: inside a segment only the cycle counter changes, so its level is held for exactly the cycles it was given. -/
def Obligations.SegmentHoldsItsLevel : Prop :=
  ∀ (p : Params) (s : State) (j : Nat), s.busy = true → s.startLeft = 0 → j < s.holdLeft →
    runSequencer p j s = ({ s with holdLeft := s.holdLeft - j }, [])

/-- R171: before the first segment only START_LEFT changes; TX_OUT is not touched. -/
def Obligations.StartLatencyHoldsThePin : Prop :=
  ∀ (p : Params) (s : State) (j : Nat), s.busy = true → j < s.startLeft →
    runSequencer p j s = ({ s with startLeft := s.startLeft - j }, [])

/-- R174: where the sequencer goes when a segment ends, and that the next segment begins at that same edge (R178). The invariant
keeps WF_LEN at most 33 and REP_LEFT at least 1. -/
def Obligations.SegmentEndsAdvanceThePosition : Prop :=
  ∀ (p : Params) (s : State), s.startLeft = 0 → s.holdLeft = 1 →
    (s.phase = false → seqStep p s = beginSegment p { s with phase := true }) ∧
    (s.phase = true → s.wfIdx.toNat + 1 < s.wfLen.toNat → s.wfLen.toNat ≤ 33 →
      seqStep p s = beginSegment p { s with phase := false, wfIdx := s.wfIdx + 1 }) ∧
    (s.phase = true → s.wfLen.toNat ≤ s.wfIdx.toNat + 1 → 1 < s.repLeft.toNat →
      seqStep p s = beginSegment p { s with phase := false, wfIdx := 0, repLeft := s.repLeft - 1 }) ∧
    (s.phase = true → s.wfLen.toNat ≤ s.wfIdx.toNat + 1 → s.repLeft.toNat = 1 →
      seqStep p s = { s with busy := false, repLeft := 0, wfIdx := 0, phase := false, holdLeft := 0 })

/-- R175, R176: a transmission the host only watches is busy for TX_START_LAT + T edges after its acceptance and is complete at
that edge, with the second level on the pin and everything but the sequencer as it was. -/
def Obligations.TransmissionCompletesOnTime : Prop :=
  ∀ (s t : State), 1 ≤ s.wfLen.toNat → s.wfLen.toNat ≤ 33 → 1 ≤ s.repeatCount.toNat → s.startLeft = 0 →
    (∀ e ∈ s.inputs, e.quiet) → exec .transmit s = .next t →
      (∀ k, k < Config.build.txStartLat + transmissionCycles Config.build s →
        ∃ u, Host.Core.run Sys2Proof.core k t = .next u ∧ u.busy = true) ∧
      ∃ u, Host.Core.run Sys2Proof.core (Config.build.txStartLat + transmissionCycles Config.build s) t = .next u ∧
        u = { t with
          busy := false, repLeft := 0, wfIdx := 0, phase := false, holdLeft := 0, startLeft := 0,
          txOut := (s.proto Config.build).inverted, inputs := u.inputs, reply := u.reply }

/-- R177, R178: the segments begun from the accepting edge on are exactly the train: REPEAT frames back to back, in order,
none missing, none added. -/
def Obligations.PulseTrainIsTheSegmentList : Prop :=
  ∀ (p : Params) (s : State), s.busy = false → s.startLeft = 0 → 1 ≤ s.wfLen.toNat → s.wfLen.toNat ≤ 33 →
    1 ≤ s.repeatCount.toNat →
      startDrives p (start p s) ++ (runSequencer p (p.txStartLat + transmissionCycles p s) (start p s)).2 = train p s ∧
      (runSequencer p (p.txStartLat + transmissionCycles p s) (start p s)).1.busy = false

/-- "A transmission begins exactly 2 · WF_LEN · REPEAT segments" (R183), and their levels alternate L1, L2 (R172). -/
def Obligations.TrainHasTwoSegmentsPerWaveform : Prop :=
  ∀ (p : Params) (s : State),
    (train p s).length = 2 * s.wfLen.toNat * s.repeatCount.toNat ∧
    ∀ (k : Nat) (h : k < (train p s).length),
      (train p s)[k].level = (if k % 2 = 0 then !(s.proto p).inverted else (s.proto p).inverted)

/-- R188: from any state of the invariant, whatever the host reads, a transmission ends within the bound: "So the sequencer
cannot hang". -/
def Obligations.EveryTransmissionEnds : Prop :=
  ∀ s : State, Inv s → s.busy = true → (∀ e ∈ s.inputs, e.quiet) →
    ∃ k u, k ≤ Config.build.txStartLat +
        s.repeatCount.toNat * (2 * s.wfLen.toNat * max 1 (255 * 65535 * Config.build.ticksPerUs)) ∧
      Host.Core.run Sys2Proof.core k s = .next u ∧ u.busy = false

/-- R185: while a transmission runs on, no host access makes a difference to it: two edges that differ only in the access leave
states that differ only in OVERRUN and the port's answer. -/
def Obligations.NoAccessDisturbsATransmission : Prop :=
  ∀ (s : State) (x y : Option HostAccess) (rest : List EdgeInput),
    (sequencerEdge Config.build { s with inputs := rest, reply := none }).busy = true →
      ∃ t u,
        step { s with inputs := { rst := false, access := x } :: rest } = .next t ∧
        step { s with inputs := { rst := false, access := y } :: rest } = .next u ∧
        u = { t with overrun := u.overrun, reply := u.reply } ∧ t.busy = true

/-- R24, cleared: without a reset BUSY falls only at the edge where the last segment of the last frame ends. -/
def Obligations.BusyFallsOnlyAtTheEnd : Prop :=
  ∀ s t : State, Inv s → s.edgeInput.rst = false → step s = .next t → s.busy = true → t.busy = false →
    s.startLeft = 0 ∧ s.holdLeft = 1 ∧ s.phase = true ∧ s.wfIdx.toNat + 1 = s.wfLen.toNat ∧ s.repLeft.toNat = 1

/-- R24, set: BUSY rises only at the acceptance of a TRANSMIT or SEND whose result is OK, with a sequence to send. -/
def Obligations.BusyRisesOnlyByTransmitOrSend : Prop :=
  ∀ s t : State, s.edgeInput.rst = false → s.atAccess.busy = false → step s = .next t → t.busy = true →
    ∃ a w i, s.edgeInput.access = some (.write a w) ∧ regAt a = some .cmd ∧ decode w = .ok i ∧
      (i = .transmit ∨ ∃ b, i = .send b) ∧ t.result = 0x00 ∧ 1 ≤ t.wfLen.toNat

/-! ## SEND -/

/-- R180 to R182: on strings a generator accepts ENCODE succeeds, and SEND leaves ENCODE's codeword, the codeword's 24 bits, the
25 waveforms of the active protocol, and a transmission begun, and nothing else has changed. -/
def Obligations.SendBuildsAndStarts : Prop :=
  ∀ (b : Bool) (s : State), s.encodable →
    ∃ (a : State) (w : Vector (BitVec 16) 33) (u : State),
      exec (.encode b) s = .next a ∧ a.result = 0x00 ∧ exec (.send b) s = .next u ∧
      u = { s.status 0x05 0x00 with
        cwLen := 12, cwData := a.cwData, scheme := a.scheme, binLen := 24, binData := a.cwData, wfLen := 25, wfData := w,
        busy := true, repLeft := s.repeatCount, wfIdx := 0, phase := false,
        startLeft := u.startLeft, holdLeft := u.holdLeft, txOut := u.txOut } ∧
      (∀ i : Fin 33, (i.val < 24 →
          highCount w[i] = (if a.cwData.getLsbD i.val then (s.proto Config.build).oneBit else (s.proto Config.build).zeroBit).high ∧
          lowCount w[i] = (if a.cwData.getLsbD i.val then (s.proto Config.build).oneBit else (s.proto Config.build).zeroBit).low) ∧
        (i.val = 24 → highCount w[i] = (s.proto Config.build).syncBit.high ∧ lowCount w[i] = (s.proto Config.build).syncBit.low) ∧
        (24 < i.val → w[i] = 0)) ∧
      (Config.build.txStartLat = 0 → u.startLeft = s.startLeft ∧ u.txOut = !(s.proto Config.build).inverted ∧
        u.holdLeft = max 1 ((highCount w[0]).toNat * (s.proto Config.build).pulseUnit.toNat * Config.build.ticksPerUs)) ∧
      (0 < Config.build.txStartLat → u.startLeft = Config.build.txStartLat ∧ u.holdLeft = s.holdLeft ∧ u.txOut = s.txOut)

/-- R180, R181: SEND is ENCODE, EXPAND, COMPILE, TRANSMIT one after another, in one access; only LAST_OP tells them apart. -/
def Obligations.SendEqualsTheFourCommands : Prop :=
  ∀ (b : Bool) (s s1 s2 s3 s4 : State),
    exec (.encode b) s = .next s1 → s1.result = 0x00 → exec .expand s1 = .next s2 → exec .compile s2 = .next s3 →
    exec .transmit s3 = .next s4 → exec (.send b) s = .next { s4 with lastOp := 0x05 } ∧ s4.result = 0x00

/-- R269, R268: under protocol 1 a frame of any encoded codeword lasts 128 units, so a SEND's length does not depend on what it
sends. -/
def Obligations.Protocol1SendLength : Prop :=
  ∀ (b : Bool) (s t : State), s.protocol = 1 → exec (.send b) s = .next t → t.result = 0x00 →
    transmissionCycles Config.build t = s.repeatCount.toNat * (44800 * Config.build.ticksPerUs)

/-! ## SET_PROTOCOL and SET_REPEAT -/

/-- R200, R201: SET_PROTOCOL accepts exactly 1..6, read as a signed number, and writes PROTOCOL and nothing else but STATUS. -/
def Obligations.SetProtocolAcceptsOneToSix : Prop :=
  ∀ s : State,
    (∀ n : Nat, 1 ≤ n → n ≤ 6 → s.arg = BitVec.ofNat 32 n →
      exec .setProtocol s = .next { s.status 0x06 0x00 with protocol := BitVec.ofNat 3 n }) ∧
    ((∀ n : Nat, 1 ≤ n → n ≤ 6 → s.arg ≠ BitVec.ofNat 32 n) → exec .setProtocol s = .next (s.status 0x06 0x60))

/-- R204, R205: SET_REPEAT accepts exactly the positive numbers, read as signed, and writes REPEAT and nothing else but
STATUS. -/
def Obligations.SetRepeatAcceptsPositive : Prop :=
  ∀ s : State,
    (∀ n : Nat, 1 ≤ n → n < 2 ^ 31 → s.arg = BitVec.ofNat 32 n →
      exec .setRepeat s = .next { s.status 0x07 0x00 with repeatCount := BitVec.ofNat 31 n }) ∧
    ((∀ n : Nat, 1 ≤ n → n < 2 ^ 31 → s.arg ≠ BitVec.ofNat 32 n) → exec .setRepeat s = .next (s.status 0x07 0x61))

/-! ## Whole-machine rules -/

/-- Every accepted command clears OVERRUN, writes LAST_OP and one of the listed result codes (R25, R83, R221), and never writes
ARG, the strings, or the port (R26, R31). -/
def Obligations.EveryCommandWritesStatusAndNoOperand : Prop :=
  ∀ (i : Instr) (s t : State), exec i s = .next t →
    t.overrun = false ∧ t.lastOp = i.opcode ∧ (∃ c : ResultCode, t.result = c.toByte) ∧ t.arg = s.arg ∧ t.fam = s.fam ∧
      t.grp = s.grp ∧ t.dev = s.dev ∧ t.inputs = s.inputs ∧ t.reply = s.reply

/-- "Every check of every command comes before its first write": a command that fails leaves all state other than STATUS as it
was (R223). -/
def Obligations.FailedCommandsWriteOnlyStatus : Prop :=
  ∀ (i : Instr) (s t : State), exec i s = .next t → t.result ≠ 0x00 → t = s.status i.opcode t.result

/-- PROTOCOL, REPEAT and SCHEME change, short of a reset, only by the accepted commands that R27, R28 and R29 name. -/
def Obligations.ConfigurationChangesOnlyByItsCommand : Prop :=
  ∀ s t : State, s.edgeInput.rst = false → step s = .next t →
    (t.protocol ≠ s.protocol → ∃ a, s.presents (some (.write a 0x006)) ∧ regAt a = some .cmd ∧ s.atAccess.busy = false ∧
      1 ≤ sint32 s.arg ∧ sint32 s.arg ≤ 6 ∧ (t.protocol.toNat : Int) = sint32 s.arg) ∧
    (t.repeatCount ≠ s.repeatCount → ∃ a, s.presents (some (.write a 0x007)) ∧ regAt a = some .cmd ∧
      s.atAccess.busy = false ∧ 1 ≤ sint32 s.arg ∧ (t.repeatCount.toNat : Int) = sint32 s.arg) ∧
    (t.scheme ≠ s.scheme → ∃ a w, s.presents (some (.write a w)) ∧ regAt a = some .cmd ∧ s.atAccess.busy = false ∧
      (w &&& 0xFF = 1 ∨ w &&& 0xFF = 5) ∧ t.result = 0x00)

/-- A reset establishes the invariant, from any state at all (R250, R252). -/
def Obligations.ResetEdgeEstablishesTheInvariant : Prop :=
  ∀ s t : State, s.edgeInput.rst = true → step s = .next t → Inv t

/-- The invariant holds in the state after reset. -/
def Obligations.ResetStateMeetsTheInvariant : Prop := Inv State.reset

/-- Every clock edge keeps the invariant, whatever the outside presents. -/
def Obligations.EveryEdgeKeepsTheInvariant : Prop := ∀ s t : State, Inv s → step s = .next t → Inv t

/-! ## Host assembly -/

/-- `setstr`'s three writes leave the text in its buffer (R64, R91), and nothing else of the block has changed. That the writes
come at consecutive edges, each in place of the waiting inputs, is the model's choice, log 17; `inputs` and `reply`, empty
afterwards, are the model's own fields, logs 1 and 2. -/
def Obligations.SetstrStoresTheText : Prop :=
  ∀ (fuel : Nat) (x : StringName) (text : List Byte) (s : State), s.busy = false → text.length ≤ 8 →
    ∃ f : StringBuffer, f.bytes = text ∧ f.len.toNat = text.length ∧
      runHostOp fuel (.setstr x text) s = .next { s.withString x f with inputs := [], reply := none }
end

