-- ==== Sys2Proof/Laws/State.lean ====
section
/-! SUPPORT. What each named update of State does to each field: one lemma per field per update. -/

namespace Sys2Proof.Machine

section
variable (s : State) (op : Byte)

@[simp] theorem State.beginCommand_busy : (s.beginCommand op).busy = s.busy := rfl
@[simp] theorem State.beginCommand_overrun : (s.beginCommand op).overrun = false := rfl
@[simp] theorem State.beginCommand_result : (s.beginCommand op).result = 0x00 := rfl
@[simp] theorem State.beginCommand_lastOp : (s.beginCommand op).lastOp = op := rfl
@[simp] theorem State.beginCommand_arg : (s.beginCommand op).arg = s.arg := rfl
@[simp] theorem State.beginCommand_protocol : (s.beginCommand op).protocol = s.protocol := rfl
@[simp] theorem State.beginCommand_repeatCount : (s.beginCommand op).repeatCount = s.repeatCount := rfl
@[simp] theorem State.beginCommand_fam : (s.beginCommand op).fam = s.fam := rfl
@[simp] theorem State.beginCommand_grp : (s.beginCommand op).grp = s.grp := rfl
@[simp] theorem State.beginCommand_dev : (s.beginCommand op).dev = s.dev := rfl
@[simp] theorem State.beginCommand_cwLen : (s.beginCommand op).cwLen = s.cwLen := rfl
@[simp] theorem State.beginCommand_cwData : (s.beginCommand op).cwData = s.cwData := rfl
@[simp] theorem State.beginCommand_binLen : (s.beginCommand op).binLen = s.binLen := rfl
@[simp] theorem State.beginCommand_binData : (s.beginCommand op).binData = s.binData := rfl
@[simp] theorem State.beginCommand_wfLen : (s.beginCommand op).wfLen = s.wfLen := rfl
@[simp] theorem State.beginCommand_wfData : (s.beginCommand op).wfData = s.wfData := rfl
@[simp] theorem State.beginCommand_scheme : (s.beginCommand op).scheme = s.scheme := rfl
@[simp] theorem State.beginCommand_repLeft : (s.beginCommand op).repLeft = s.repLeft := rfl
@[simp] theorem State.beginCommand_wfIdx : (s.beginCommand op).wfIdx = s.wfIdx := rfl
@[simp] theorem State.beginCommand_phase : (s.beginCommand op).phase = s.phase := rfl
@[simp] theorem State.beginCommand_holdLeft : (s.beginCommand op).holdLeft = s.holdLeft := rfl
@[simp] theorem State.beginCommand_startLeft : (s.beginCommand op).startLeft = s.startLeft := rfl
@[simp] theorem State.beginCommand_txOut : (s.beginCommand op).txOut = s.txOut := rfl
@[simp] theorem State.beginCommand_inputs : (s.beginCommand op).inputs = s.inputs := rfl
@[simp] theorem State.beginCommand_reply : (s.beginCommand op).reply = s.reply := rfl

end

section
variable (s : State) (c : ResultCode)

@[simp] theorem State.raise_busy : (s.raise c).busy = s.busy := rfl
@[simp] theorem State.raise_overrun : (s.raise c).overrun = s.overrun := rfl
@[simp] theorem State.raise_result : (s.raise c).result = c.toByte := rfl
@[simp] theorem State.raise_lastOp : (s.raise c).lastOp = s.lastOp := rfl
@[simp] theorem State.raise_arg : (s.raise c).arg = s.arg := rfl
@[simp] theorem State.raise_protocol : (s.raise c).protocol = s.protocol := rfl
@[simp] theorem State.raise_repeatCount : (s.raise c).repeatCount = s.repeatCount := rfl
@[simp] theorem State.raise_fam : (s.raise c).fam = s.fam := rfl
@[simp] theorem State.raise_grp : (s.raise c).grp = s.grp := rfl
@[simp] theorem State.raise_dev : (s.raise c).dev = s.dev := rfl
@[simp] theorem State.raise_cwLen : (s.raise c).cwLen = s.cwLen := rfl
@[simp] theorem State.raise_cwData : (s.raise c).cwData = s.cwData := rfl
@[simp] theorem State.raise_binLen : (s.raise c).binLen = s.binLen := rfl
@[simp] theorem State.raise_binData : (s.raise c).binData = s.binData := rfl
@[simp] theorem State.raise_wfLen : (s.raise c).wfLen = s.wfLen := rfl
@[simp] theorem State.raise_wfData : (s.raise c).wfData = s.wfData := rfl
@[simp] theorem State.raise_scheme : (s.raise c).scheme = s.scheme := rfl
@[simp] theorem State.raise_repLeft : (s.raise c).repLeft = s.repLeft := rfl
@[simp] theorem State.raise_wfIdx : (s.raise c).wfIdx = s.wfIdx := rfl
@[simp] theorem State.raise_phase : (s.raise c).phase = s.phase := rfl
@[simp] theorem State.raise_holdLeft : (s.raise c).holdLeft = s.holdLeft := rfl
@[simp] theorem State.raise_startLeft : (s.raise c).startLeft = s.startLeft := rfl
@[simp] theorem State.raise_txOut : (s.raise c).txOut = s.txOut := rfl
@[simp] theorem State.raise_inputs : (s.raise c).inputs = s.inputs := rfl
@[simp] theorem State.raise_reply : (s.raise c).reply = s.reply := rfl

end

section
variable (s : State) (k : Scheme) (t : List Tri)

@[simp] theorem State.setCodeword_busy : (s.setCodeword k t).busy = s.busy := rfl
@[simp] theorem State.setCodeword_overrun : (s.setCodeword k t).overrun = s.overrun := rfl
@[simp] theorem State.setCodeword_result : (s.setCodeword k t).result = s.result := rfl
@[simp] theorem State.setCodeword_lastOp : (s.setCodeword k t).lastOp = s.lastOp := rfl
@[simp] theorem State.setCodeword_arg : (s.setCodeword k t).arg = s.arg := rfl
@[simp] theorem State.setCodeword_protocol : (s.setCodeword k t).protocol = s.protocol := rfl
@[simp] theorem State.setCodeword_repeatCount : (s.setCodeword k t).repeatCount = s.repeatCount := rfl
@[simp] theorem State.setCodeword_fam : (s.setCodeword k t).fam = s.fam := rfl
@[simp] theorem State.setCodeword_grp : (s.setCodeword k t).grp = s.grp := rfl
@[simp] theorem State.setCodeword_dev : (s.setCodeword k t).dev = s.dev := rfl
@[simp] theorem State.setCodeword_cwLen : (s.setCodeword k t).cwLen = 12 := rfl
@[simp] theorem State.setCodeword_cwData : (s.setCodeword k t).cwData = packSymbols t := rfl
@[simp] theorem State.setCodeword_binLen : (s.setCodeword k t).binLen = s.binLen := rfl
@[simp] theorem State.setCodeword_binData : (s.setCodeword k t).binData = s.binData := rfl
@[simp] theorem State.setCodeword_wfLen : (s.setCodeword k t).wfLen = s.wfLen := rfl
@[simp] theorem State.setCodeword_wfData : (s.setCodeword k t).wfData = s.wfData := rfl
@[simp] theorem State.setCodeword_scheme : (s.setCodeword k t).scheme = k.code := rfl
@[simp] theorem State.setCodeword_repLeft : (s.setCodeword k t).repLeft = s.repLeft := rfl
@[simp] theorem State.setCodeword_wfIdx : (s.setCodeword k t).wfIdx = s.wfIdx := rfl
@[simp] theorem State.setCodeword_phase : (s.setCodeword k t).phase = s.phase := rfl
@[simp] theorem State.setCodeword_holdLeft : (s.setCodeword k t).holdLeft = s.holdLeft := rfl
@[simp] theorem State.setCodeword_startLeft : (s.setCodeword k t).startLeft = s.startLeft := rfl
@[simp] theorem State.setCodeword_txOut : (s.setCodeword k t).txOut = s.txOut := rfl
@[simp] theorem State.setCodeword_inputs : (s.setCodeword k t).inputs = s.inputs := rfl
@[simp] theorem State.setCodeword_reply : (s.setCodeword k t).reply = s.reply := rfl

end

section
variable (s : State) (b : List Bool)

@[simp] theorem State.setBinary_busy : (s.setBinary b).busy = s.busy := rfl
@[simp] theorem State.setBinary_overrun : (s.setBinary b).overrun = s.overrun := rfl
@[simp] theorem State.setBinary_result : (s.setBinary b).result = s.result := rfl
@[simp] theorem State.setBinary_lastOp : (s.setBinary b).lastOp = s.lastOp := rfl
@[simp] theorem State.setBinary_arg : (s.setBinary b).arg = s.arg := rfl
@[simp] theorem State.setBinary_protocol : (s.setBinary b).protocol = s.protocol := rfl
@[simp] theorem State.setBinary_repeatCount : (s.setBinary b).repeatCount = s.repeatCount := rfl
@[simp] theorem State.setBinary_fam : (s.setBinary b).fam = s.fam := rfl
@[simp] theorem State.setBinary_grp : (s.setBinary b).grp = s.grp := rfl
@[simp] theorem State.setBinary_dev : (s.setBinary b).dev = s.dev := rfl
@[simp] theorem State.setBinary_cwLen : (s.setBinary b).cwLen = s.cwLen := rfl
@[simp] theorem State.setBinary_cwData : (s.setBinary b).cwData = s.cwData := rfl
@[simp] theorem State.setBinary_binLen : (s.setBinary b).binLen = BitVec.ofNat 8 b.length := rfl
@[simp] theorem State.setBinary_binData : (s.setBinary b).binData = packBits b := rfl
@[simp] theorem State.setBinary_wfLen : (s.setBinary b).wfLen = s.wfLen := rfl
@[simp] theorem State.setBinary_wfData : (s.setBinary b).wfData = s.wfData := rfl
@[simp] theorem State.setBinary_scheme : (s.setBinary b).scheme = s.scheme := rfl
@[simp] theorem State.setBinary_repLeft : (s.setBinary b).repLeft = s.repLeft := rfl
@[simp] theorem State.setBinary_wfIdx : (s.setBinary b).wfIdx = s.wfIdx := rfl
@[simp] theorem State.setBinary_phase : (s.setBinary b).phase = s.phase := rfl
@[simp] theorem State.setBinary_holdLeft : (s.setBinary b).holdLeft = s.holdLeft := rfl
@[simp] theorem State.setBinary_startLeft : (s.setBinary b).startLeft = s.startLeft := rfl
@[simp] theorem State.setBinary_txOut : (s.setBinary b).txOut = s.txOut := rfl
@[simp] theorem State.setBinary_inputs : (s.setBinary b).inputs = s.inputs := rfl
@[simp] theorem State.setBinary_reply : (s.setBinary b).reply = s.reply := rfl

end

section
variable (s : State) (q : Protocol)

@[simp] theorem State.setWaveforms_busy : (s.setWaveforms q).busy = s.busy := rfl
@[simp] theorem State.setWaveforms_overrun : (s.setWaveforms q).overrun = s.overrun := rfl
@[simp] theorem State.setWaveforms_result : (s.setWaveforms q).result = s.result := rfl
@[simp] theorem State.setWaveforms_lastOp : (s.setWaveforms q).lastOp = s.lastOp := rfl
@[simp] theorem State.setWaveforms_arg : (s.setWaveforms q).arg = s.arg := rfl
@[simp] theorem State.setWaveforms_protocol : (s.setWaveforms q).protocol = s.protocol := rfl
@[simp] theorem State.setWaveforms_repeatCount : (s.setWaveforms q).repeatCount = s.repeatCount := rfl
@[simp] theorem State.setWaveforms_fam : (s.setWaveforms q).fam = s.fam := rfl
@[simp] theorem State.setWaveforms_grp : (s.setWaveforms q).grp = s.grp := rfl
@[simp] theorem State.setWaveforms_dev : (s.setWaveforms q).dev = s.dev := rfl
@[simp] theorem State.setWaveforms_cwLen : (s.setWaveforms q).cwLen = s.cwLen := rfl
@[simp] theorem State.setWaveforms_cwData : (s.setWaveforms q).cwData = s.cwData := rfl
@[simp] theorem State.setWaveforms_binLen : (s.setWaveforms q).binLen = s.binLen := rfl
@[simp] theorem State.setWaveforms_binData : (s.setWaveforms q).binData = s.binData := rfl
@[simp] theorem State.setWaveforms_wfLen : (s.setWaveforms q).wfLen = s.binLen + 1 := rfl
@[simp] theorem State.setWaveforms_wfData : (s.setWaveforms q).wfData = Vector.ofFn fun i : Fin 33 => compiledEntry q s.binData s.binLen.toNat i.val := rfl
@[simp] theorem State.setWaveforms_scheme : (s.setWaveforms q).scheme = s.scheme := rfl
@[simp] theorem State.setWaveforms_repLeft : (s.setWaveforms q).repLeft = s.repLeft := rfl
@[simp] theorem State.setWaveforms_wfIdx : (s.setWaveforms q).wfIdx = s.wfIdx := rfl
@[simp] theorem State.setWaveforms_phase : (s.setWaveforms q).phase = s.phase := rfl
@[simp] theorem State.setWaveforms_holdLeft : (s.setWaveforms q).holdLeft = s.holdLeft := rfl
@[simp] theorem State.setWaveforms_startLeft : (s.setWaveforms q).startLeft = s.startLeft := rfl
@[simp] theorem State.setWaveforms_txOut : (s.setWaveforms q).txOut = s.txOut := rfl
@[simp] theorem State.setWaveforms_inputs : (s.setWaveforms q).inputs = s.inputs := rfl
@[simp] theorem State.setWaveforms_reply : (s.setWaveforms q).reply = s.reply := rfl

end

section
variable (s : State) (n : Int)

@[simp] theorem State.setProtocol_busy : (s.setProtocol n).busy = s.busy := rfl
@[simp] theorem State.setProtocol_overrun : (s.setProtocol n).overrun = s.overrun := rfl
@[simp] theorem State.setProtocol_result : (s.setProtocol n).result = s.result := rfl
@[simp] theorem State.setProtocol_lastOp : (s.setProtocol n).lastOp = s.lastOp := rfl
@[simp] theorem State.setProtocol_arg : (s.setProtocol n).arg = s.arg := rfl
@[simp] theorem State.setProtocol_protocol : (s.setProtocol n).protocol = BitVec.ofInt 3 n := rfl
@[simp] theorem State.setProtocol_repeatCount : (s.setProtocol n).repeatCount = s.repeatCount := rfl
@[simp] theorem State.setProtocol_fam : (s.setProtocol n).fam = s.fam := rfl
@[simp] theorem State.setProtocol_grp : (s.setProtocol n).grp = s.grp := rfl
@[simp] theorem State.setProtocol_dev : (s.setProtocol n).dev = s.dev := rfl
@[simp] theorem State.setProtocol_cwLen : (s.setProtocol n).cwLen = s.cwLen := rfl
@[simp] theorem State.setProtocol_cwData : (s.setProtocol n).cwData = s.cwData := rfl
@[simp] theorem State.setProtocol_binLen : (s.setProtocol n).binLen = s.binLen := rfl
@[simp] theorem State.setProtocol_binData : (s.setProtocol n).binData = s.binData := rfl
@[simp] theorem State.setProtocol_wfLen : (s.setProtocol n).wfLen = s.wfLen := rfl
@[simp] theorem State.setProtocol_wfData : (s.setProtocol n).wfData = s.wfData := rfl
@[simp] theorem State.setProtocol_scheme : (s.setProtocol n).scheme = s.scheme := rfl
@[simp] theorem State.setProtocol_repLeft : (s.setProtocol n).repLeft = s.repLeft := rfl
@[simp] theorem State.setProtocol_wfIdx : (s.setProtocol n).wfIdx = s.wfIdx := rfl
@[simp] theorem State.setProtocol_phase : (s.setProtocol n).phase = s.phase := rfl
@[simp] theorem State.setProtocol_holdLeft : (s.setProtocol n).holdLeft = s.holdLeft := rfl
@[simp] theorem State.setProtocol_startLeft : (s.setProtocol n).startLeft = s.startLeft := rfl
@[simp] theorem State.setProtocol_txOut : (s.setProtocol n).txOut = s.txOut := rfl
@[simp] theorem State.setProtocol_inputs : (s.setProtocol n).inputs = s.inputs := rfl
@[simp] theorem State.setProtocol_reply : (s.setProtocol n).reply = s.reply := rfl

end

section
variable (s : State) (n : Int)

@[simp] theorem State.setRepeat_busy : (s.setRepeat n).busy = s.busy := rfl
@[simp] theorem State.setRepeat_overrun : (s.setRepeat n).overrun = s.overrun := rfl
@[simp] theorem State.setRepeat_result : (s.setRepeat n).result = s.result := rfl
@[simp] theorem State.setRepeat_lastOp : (s.setRepeat n).lastOp = s.lastOp := rfl
@[simp] theorem State.setRepeat_arg : (s.setRepeat n).arg = s.arg := rfl
@[simp] theorem State.setRepeat_protocol : (s.setRepeat n).protocol = s.protocol := rfl
@[simp] theorem State.setRepeat_repeatCount : (s.setRepeat n).repeatCount = BitVec.ofInt 31 n := rfl
@[simp] theorem State.setRepeat_fam : (s.setRepeat n).fam = s.fam := rfl
@[simp] theorem State.setRepeat_grp : (s.setRepeat n).grp = s.grp := rfl
@[simp] theorem State.setRepeat_dev : (s.setRepeat n).dev = s.dev := rfl
@[simp] theorem State.setRepeat_cwLen : (s.setRepeat n).cwLen = s.cwLen := rfl
@[simp] theorem State.setRepeat_cwData : (s.setRepeat n).cwData = s.cwData := rfl
@[simp] theorem State.setRepeat_binLen : (s.setRepeat n).binLen = s.binLen := rfl
@[simp] theorem State.setRepeat_binData : (s.setRepeat n).binData = s.binData := rfl
@[simp] theorem State.setRepeat_wfLen : (s.setRepeat n).wfLen = s.wfLen := rfl
@[simp] theorem State.setRepeat_wfData : (s.setRepeat n).wfData = s.wfData := rfl
@[simp] theorem State.setRepeat_scheme : (s.setRepeat n).scheme = s.scheme := rfl
@[simp] theorem State.setRepeat_repLeft : (s.setRepeat n).repLeft = s.repLeft := rfl
@[simp] theorem State.setRepeat_wfIdx : (s.setRepeat n).wfIdx = s.wfIdx := rfl
@[simp] theorem State.setRepeat_phase : (s.setRepeat n).phase = s.phase := rfl
@[simp] theorem State.setRepeat_holdLeft : (s.setRepeat n).holdLeft = s.holdLeft := rfl
@[simp] theorem State.setRepeat_startLeft : (s.setRepeat n).startLeft = s.startLeft := rfl
@[simp] theorem State.setRepeat_txOut : (s.setRepeat n).txOut = s.txOut := rfl
@[simp] theorem State.setRepeat_inputs : (s.setRepeat n).inputs = s.inputs := rfl
@[simp] theorem State.setRepeat_reply : (s.setRepeat n).reply = s.reply := rfl

end

section
variable (s : State)

@[simp] theorem State.takePosition_busy : (s.takePosition).busy = true := rfl
@[simp] theorem State.takePosition_overrun : (s.takePosition).overrun = s.overrun := rfl
@[simp] theorem State.takePosition_result : (s.takePosition).result = s.result := rfl
@[simp] theorem State.takePosition_lastOp : (s.takePosition).lastOp = s.lastOp := rfl
@[simp] theorem State.takePosition_arg : (s.takePosition).arg = s.arg := rfl
@[simp] theorem State.takePosition_protocol : (s.takePosition).protocol = s.protocol := rfl
@[simp] theorem State.takePosition_repeatCount : (s.takePosition).repeatCount = s.repeatCount := rfl
@[simp] theorem State.takePosition_fam : (s.takePosition).fam = s.fam := rfl
@[simp] theorem State.takePosition_grp : (s.takePosition).grp = s.grp := rfl
@[simp] theorem State.takePosition_dev : (s.takePosition).dev = s.dev := rfl
@[simp] theorem State.takePosition_cwLen : (s.takePosition).cwLen = s.cwLen := rfl
@[simp] theorem State.takePosition_cwData : (s.takePosition).cwData = s.cwData := rfl
@[simp] theorem State.takePosition_binLen : (s.takePosition).binLen = s.binLen := rfl
@[simp] theorem State.takePosition_binData : (s.takePosition).binData = s.binData := rfl
@[simp] theorem State.takePosition_wfLen : (s.takePosition).wfLen = s.wfLen := rfl
@[simp] theorem State.takePosition_wfData : (s.takePosition).wfData = s.wfData := rfl
@[simp] theorem State.takePosition_scheme : (s.takePosition).scheme = s.scheme := rfl
@[simp] theorem State.takePosition_repLeft : (s.takePosition).repLeft = s.repeatCount := rfl
@[simp] theorem State.takePosition_wfIdx : (s.takePosition).wfIdx = 0 := rfl
@[simp] theorem State.takePosition_phase : (s.takePosition).phase = false := rfl
@[simp] theorem State.takePosition_holdLeft : (s.takePosition).holdLeft = s.holdLeft := rfl
@[simp] theorem State.takePosition_startLeft : (s.takePosition).startLeft = s.startLeft := rfl
@[simp] theorem State.takePosition_txOut : (s.takePosition).txOut = s.txOut := rfl
@[simp] theorem State.takePosition_inputs : (s.takePosition).inputs = s.inputs := rfl
@[simp] theorem State.takePosition_reply : (s.takePosition).reply = s.reply := rfl

end

section
variable (s : State)

@[simp] theorem State.takeInput_busy : (s.takeInput).busy = s.busy := rfl
@[simp] theorem State.takeInput_overrun : (s.takeInput).overrun = s.overrun := rfl
@[simp] theorem State.takeInput_result : (s.takeInput).result = s.result := rfl
@[simp] theorem State.takeInput_lastOp : (s.takeInput).lastOp = s.lastOp := rfl
@[simp] theorem State.takeInput_arg : (s.takeInput).arg = s.arg := rfl
@[simp] theorem State.takeInput_protocol : (s.takeInput).protocol = s.protocol := rfl
@[simp] theorem State.takeInput_repeatCount : (s.takeInput).repeatCount = s.repeatCount := rfl
@[simp] theorem State.takeInput_fam : (s.takeInput).fam = s.fam := rfl
@[simp] theorem State.takeInput_grp : (s.takeInput).grp = s.grp := rfl
@[simp] theorem State.takeInput_dev : (s.takeInput).dev = s.dev := rfl
@[simp] theorem State.takeInput_cwLen : (s.takeInput).cwLen = s.cwLen := rfl
@[simp] theorem State.takeInput_cwData : (s.takeInput).cwData = s.cwData := rfl
@[simp] theorem State.takeInput_binLen : (s.takeInput).binLen = s.binLen := rfl
@[simp] theorem State.takeInput_binData : (s.takeInput).binData = s.binData := rfl
@[simp] theorem State.takeInput_wfLen : (s.takeInput).wfLen = s.wfLen := rfl
@[simp] theorem State.takeInput_wfData : (s.takeInput).wfData = s.wfData := rfl
@[simp] theorem State.takeInput_scheme : (s.takeInput).scheme = s.scheme := rfl
@[simp] theorem State.takeInput_repLeft : (s.takeInput).repLeft = s.repLeft := rfl
@[simp] theorem State.takeInput_wfIdx : (s.takeInput).wfIdx = s.wfIdx := rfl
@[simp] theorem State.takeInput_phase : (s.takeInput).phase = s.phase := rfl
@[simp] theorem State.takeInput_holdLeft : (s.takeInput).holdLeft = s.holdLeft := rfl
@[simp] theorem State.takeInput_startLeft : (s.takeInput).startLeft = s.startLeft := rfl
@[simp] theorem State.takeInput_txOut : (s.takeInput).txOut = s.txOut := rfl
@[simp] theorem State.takeInput_inputs : (s.takeInput).inputs = s.inputs.tail := rfl
@[simp] theorem State.takeInput_reply : (s.takeInput).reply = none := rfl

end

section
variable (s : State) (w : Word)

@[simp] theorem State.answer_busy : (s.answer w).busy = s.busy := rfl
@[simp] theorem State.answer_overrun : (s.answer w).overrun = s.overrun := rfl
@[simp] theorem State.answer_result : (s.answer w).result = s.result := rfl
@[simp] theorem State.answer_lastOp : (s.answer w).lastOp = s.lastOp := rfl
@[simp] theorem State.answer_arg : (s.answer w).arg = s.arg := rfl
@[simp] theorem State.answer_protocol : (s.answer w).protocol = s.protocol := rfl
@[simp] theorem State.answer_repeatCount : (s.answer w).repeatCount = s.repeatCount := rfl
@[simp] theorem State.answer_fam : (s.answer w).fam = s.fam := rfl
@[simp] theorem State.answer_grp : (s.answer w).grp = s.grp := rfl
@[simp] theorem State.answer_dev : (s.answer w).dev = s.dev := rfl
@[simp] theorem State.answer_cwLen : (s.answer w).cwLen = s.cwLen := rfl
@[simp] theorem State.answer_cwData : (s.answer w).cwData = s.cwData := rfl
@[simp] theorem State.answer_binLen : (s.answer w).binLen = s.binLen := rfl
@[simp] theorem State.answer_binData : (s.answer w).binData = s.binData := rfl
@[simp] theorem State.answer_wfLen : (s.answer w).wfLen = s.wfLen := rfl
@[simp] theorem State.answer_wfData : (s.answer w).wfData = s.wfData := rfl
@[simp] theorem State.answer_scheme : (s.answer w).scheme = s.scheme := rfl
@[simp] theorem State.answer_repLeft : (s.answer w).repLeft = s.repLeft := rfl
@[simp] theorem State.answer_wfIdx : (s.answer w).wfIdx = s.wfIdx := rfl
@[simp] theorem State.answer_phase : (s.answer w).phase = s.phase := rfl
@[simp] theorem State.answer_holdLeft : (s.answer w).holdLeft = s.holdLeft := rfl
@[simp] theorem State.answer_startLeft : (s.answer w).startLeft = s.startLeft := rfl
@[simp] theorem State.answer_txOut : (s.answer w).txOut = s.txOut := rfl
@[simp] theorem State.answer_inputs : (s.answer w).inputs = s.inputs := rfl
@[simp] theorem State.answer_reply : (s.answer w).reply = some w := rfl

end

section
variable (s : State)

@[simp] theorem State.dropWrite_busy : (s.dropWrite).busy = s.busy := rfl
@[simp] theorem State.dropWrite_overrun : (s.dropWrite).overrun = true := rfl
@[simp] theorem State.dropWrite_result : (s.dropWrite).result = s.result := rfl
@[simp] theorem State.dropWrite_lastOp : (s.dropWrite).lastOp = s.lastOp := rfl
@[simp] theorem State.dropWrite_arg : (s.dropWrite).arg = s.arg := rfl
@[simp] theorem State.dropWrite_protocol : (s.dropWrite).protocol = s.protocol := rfl
@[simp] theorem State.dropWrite_repeatCount : (s.dropWrite).repeatCount = s.repeatCount := rfl
@[simp] theorem State.dropWrite_fam : (s.dropWrite).fam = s.fam := rfl
@[simp] theorem State.dropWrite_grp : (s.dropWrite).grp = s.grp := rfl
@[simp] theorem State.dropWrite_dev : (s.dropWrite).dev = s.dev := rfl
@[simp] theorem State.dropWrite_cwLen : (s.dropWrite).cwLen = s.cwLen := rfl
@[simp] theorem State.dropWrite_cwData : (s.dropWrite).cwData = s.cwData := rfl
@[simp] theorem State.dropWrite_binLen : (s.dropWrite).binLen = s.binLen := rfl
@[simp] theorem State.dropWrite_binData : (s.dropWrite).binData = s.binData := rfl
@[simp] theorem State.dropWrite_wfLen : (s.dropWrite).wfLen = s.wfLen := rfl
@[simp] theorem State.dropWrite_wfData : (s.dropWrite).wfData = s.wfData := rfl
@[simp] theorem State.dropWrite_scheme : (s.dropWrite).scheme = s.scheme := rfl
@[simp] theorem State.dropWrite_repLeft : (s.dropWrite).repLeft = s.repLeft := rfl
@[simp] theorem State.dropWrite_wfIdx : (s.dropWrite).wfIdx = s.wfIdx := rfl
@[simp] theorem State.dropWrite_phase : (s.dropWrite).phase = s.phase := rfl
@[simp] theorem State.dropWrite_holdLeft : (s.dropWrite).holdLeft = s.holdLeft := rfl
@[simp] theorem State.dropWrite_startLeft : (s.dropWrite).startLeft = s.startLeft := rfl
@[simp] theorem State.dropWrite_txOut : (s.dropWrite).txOut = s.txOut := rfl
@[simp] theorem State.dropWrite_inputs : (s.dropWrite).inputs = s.inputs := rfl
@[simp] theorem State.dropWrite_reply : (s.dropWrite).reply = s.reply := rfl

end

section
variable (s : State) (p : Params)

@[simp] theorem State.beginSegment_busy : (beginSegment p s).busy = s.busy := rfl
@[simp] theorem State.beginSegment_overrun : (beginSegment p s).overrun = s.overrun := rfl
@[simp] theorem State.beginSegment_result : (beginSegment p s).result = s.result := rfl
@[simp] theorem State.beginSegment_lastOp : (beginSegment p s).lastOp = s.lastOp := rfl
@[simp] theorem State.beginSegment_arg : (beginSegment p s).arg = s.arg := rfl
@[simp] theorem State.beginSegment_protocol : (beginSegment p s).protocol = s.protocol := rfl
@[simp] theorem State.beginSegment_repeatCount : (beginSegment p s).repeatCount = s.repeatCount := rfl
@[simp] theorem State.beginSegment_fam : (beginSegment p s).fam = s.fam := rfl
@[simp] theorem State.beginSegment_grp : (beginSegment p s).grp = s.grp := rfl
@[simp] theorem State.beginSegment_dev : (beginSegment p s).dev = s.dev := rfl
@[simp] theorem State.beginSegment_cwLen : (beginSegment p s).cwLen = s.cwLen := rfl
@[simp] theorem State.beginSegment_cwData : (beginSegment p s).cwData = s.cwData := rfl
@[simp] theorem State.beginSegment_binLen : (beginSegment p s).binLen = s.binLen := rfl
@[simp] theorem State.beginSegment_binData : (beginSegment p s).binData = s.binData := rfl
@[simp] theorem State.beginSegment_wfLen : (beginSegment p s).wfLen = s.wfLen := rfl
@[simp] theorem State.beginSegment_wfData : (beginSegment p s).wfData = s.wfData := rfl
@[simp] theorem State.beginSegment_scheme : (beginSegment p s).scheme = s.scheme := rfl
@[simp] theorem State.beginSegment_repLeft : (beginSegment p s).repLeft = s.repLeft := rfl
@[simp] theorem State.beginSegment_wfIdx : (beginSegment p s).wfIdx = s.wfIdx := rfl
@[simp] theorem State.beginSegment_phase : (beginSegment p s).phase = s.phase := rfl
@[simp] theorem State.beginSegment_holdLeft : (beginSegment p s).holdLeft = dur p (s.proto p) (segmentCount p s) := rfl
@[simp] theorem State.beginSegment_startLeft : (beginSegment p s).startLeft = s.startLeft := rfl
@[simp] theorem State.beginSegment_txOut : (beginSegment p s).txOut = segmentLevel p s := rfl
@[simp] theorem State.beginSegment_inputs : (beginSegment p s).inputs = s.inputs := rfl
@[simp] theorem State.beginSegment_reply : (beginSegment p s).reply = s.reply := rfl

end

section
variable (s : State)

@[simp] theorem State.finish_busy : (finish s).busy = false := rfl
@[simp] theorem State.finish_overrun : (finish s).overrun = s.overrun := rfl
@[simp] theorem State.finish_result : (finish s).result = s.result := rfl
@[simp] theorem State.finish_lastOp : (finish s).lastOp = s.lastOp := rfl
@[simp] theorem State.finish_arg : (finish s).arg = s.arg := rfl
@[simp] theorem State.finish_protocol : (finish s).protocol = s.protocol := rfl
@[simp] theorem State.finish_repeatCount : (finish s).repeatCount = s.repeatCount := rfl
@[simp] theorem State.finish_fam : (finish s).fam = s.fam := rfl
@[simp] theorem State.finish_grp : (finish s).grp = s.grp := rfl
@[simp] theorem State.finish_dev : (finish s).dev = s.dev := rfl
@[simp] theorem State.finish_cwLen : (finish s).cwLen = s.cwLen := rfl
@[simp] theorem State.finish_cwData : (finish s).cwData = s.cwData := rfl
@[simp] theorem State.finish_binLen : (finish s).binLen = s.binLen := rfl
@[simp] theorem State.finish_binData : (finish s).binData = s.binData := rfl
@[simp] theorem State.finish_wfLen : (finish s).wfLen = s.wfLen := rfl
@[simp] theorem State.finish_wfData : (finish s).wfData = s.wfData := rfl
@[simp] theorem State.finish_scheme : (finish s).scheme = s.scheme := rfl
@[simp] theorem State.finish_repLeft : (finish s).repLeft = 0 := rfl
@[simp] theorem State.finish_wfIdx : (finish s).wfIdx = 0 := rfl
@[simp] theorem State.finish_phase : (finish s).phase = false := rfl
@[simp] theorem State.finish_holdLeft : (finish s).holdLeft = 0 := rfl
@[simp] theorem State.finish_startLeft : (finish s).startLeft = s.startLeft := rfl
@[simp] theorem State.finish_txOut : (finish s).txOut = s.txOut := rfl
@[simp] theorem State.finish_inputs : (finish s).inputs = s.inputs := rfl
@[simp] theorem State.finish_reply : (finish s).reply = s.reply := rfl

end

end Sys2Proof.Machine
end

