-- ==== Sys2Proof/Laws/Ops.lean ====
section
/-! SUPPORT. What a command can do, said once: every command is `runCommand` of its opcode and body, every body either writes
its own outputs or raises an error before it writes anything (R83, R223). -/

namespace Sys2Proof.Machine

/-- The body each command runs after `issue`'s own writes. -/
def commandBody : Instr → State → Except ResultCode State
  | .encode b => encodeOp b
  | .expand => expandOp
  | .compile => compileOp Config.build
  | .transmit => transmitOp Config.build
  | .send b => sendOp Config.build b
  | .setProtocol => setProtocolOp
  | .setRepeat => setRepeatOp

theorem exec_eq_runCommand (i : Instr) (s : State) : exec i s = runCommand i.opcode (commandBody i) s := by
  cases i <;> rfl

theorem runCommand_ok {op : Byte} {body : State → Except ResultCode State} {s t : State}
    (h : body (s.beginCommand op) = .ok t) : runCommand op body s = .next t := by simp [runCommand, h]

theorem runCommand_error {op : Byte} {body : State → Except ResultCode State} {s : State} {c : ResultCode}
    (h : body (s.beginCommand op) = .error c) : runCommand op body s = .next ((s.beginCommand op).raise c) := by
  simp [runCommand, h]

/-- A command ends with its body's state, or with its body's error raised. -/
theorem runCommand_cases {op : Byte} {body : State → Except ResultCode State} {s t : State}
    (h : runCommand op body s = .next t) :
    body (s.beginCommand op) = .ok t ∨
      ∃ c, body (s.beginCommand op) = .error c ∧ t = (s.beginCommand op).raise c := by
  unfold runCommand at h
  split at h
  · cases h; exact .inl ‹_›
  · cases h; exact .inr ⟨_, ‹_›, rfl⟩

theorem exec_cases {i : Instr} {s t : State} (h : exec i s = .next t) :
    commandBody i (s.beginCommand i.opcode) = .ok t ∨
      ∃ c, commandBody i (s.beginCommand i.opcode) = .error c ∧ t = (s.beginCommand i.opcode).raise c :=
  runCommand_cases (exec_eq_runCommand i s ▸ h)

theorem exec_of_ok {i : Instr} {s t : State} (h : commandBody i (s.beginCommand i.opcode) = .ok t) : exec i s = .next t := by
  rw [exec_eq_runCommand]; exact runCommand_ok h

theorem exec_of_error {i : Instr} {s : State} {c : ResultCode} (h : commandBody i (s.beginCommand i.opcode) = .error c) :
    exec i s = .next ((s.beginCommand i.opcode).raise c) := by
  rw [exec_eq_runCommand]; exact runCommand_error h

/-! ## The bodies, one inversion lemma each -/

theorem encodeOp_eq_ok {b : Bool} {s t : State} (h : encodeOp b s = .ok t) :
    ∃ k l, encodeFn s.fam s.grp s.dev b = .ok (k, l) ∧ t = s.setCodeword k l := by
  unfold encodeOp at h
  split at h
  · cases h; exact ⟨_, _, ‹_›, rfl⟩
  · cases h

theorem encodeOp_eq_error {b : Bool} {s : State} {c : ResultCode} (h : encodeOp b s = .error c) :
    encodeFn s.fam s.grp s.dev b = .error c := by
  unfold encodeOp at h
  split at h
  · cases h
  · cases h; assumption

theorem expandOp_eq_ok {s t : State} (h : expandOp s = .ok t) :
    s.cwLen.toNat ≤ cwCap ∧ t = s.setBinary (expandBits s.cwData s.cwLen.toNat) := by
  unfold expandOp at h
  split at h
  · cases h
  · cases h; exact ⟨by omega, rfl⟩

theorem compileOp_eq_ok {p : Params} {s t : State} (h : compileOp p s = .ok t) :
    s.binLen.toNat ≤ binCap ∧ t = s.setWaveforms (s.proto p) := by
  unfold compileOp at h
  split at h
  · cases h
  · cases h; exact ⟨by omega, rfl⟩

/-- TRANSMIT starts the sequencer on a sequence of 1..33 waveforms, or does nothing with an empty one (R170, R186). -/
theorem transmitOp_eq_ok {p : Params} {s t : State} (h : transmitOp p s = .ok t) :
    (s.wfLen = 0 ∧ t = s) ∨ (1 ≤ s.wfLen.toNat ∧ s.wfLen.toNat ≤ wfCap ∧ t = start p s) := by
  unfold transmitOp at h
  split at h
  · cases h
  · split at h
    · cases h; exact .inl ⟨‹_›, rfl⟩
    · cases h
      rename_i h1 h2
      refine .inr ⟨?_, by omega, rfl⟩
      have : s.wfLen.toNat ≠ 0 := fun h0 => h2 (BitVec.eq_of_toNat_eq h0)
      omega

theorem sendOp_eq_ok {p : Params} {b : Bool} {s t : State} (h : sendOp p b s = .ok t) :
    ∃ s1 s2 s3, encodeOp b s = .ok s1 ∧ expandOp s1 = .ok s2 ∧ compileOp p s2 = .ok s3 ∧ transmitOp p s3 = .ok t := by
  unfold sendOp at h
  split at h
  · cases h
  · split at h
    · cases h
    · split at h
      · cases h
      · exact ⟨_, _, _, ‹_›, ‹_›, ‹_›, h⟩

theorem setProtocolOp_eq_ok {s t : State} (h : setProtocolOp s = .ok t) :
    1 ≤ sint32 s.arg ∧ sint32 s.arg ≤ 6 ∧ t = s.setProtocol (sint32 s.arg) := by
  unfold setProtocolOp at h
  split at h
  · cases h
  · cases h; exact ⟨by omega, by omega, rfl⟩

theorem setRepeatOp_eq_ok {s t : State} (h : setRepeatOp s = .ok t) :
    1 ≤ sint32 s.arg ∧ t = s.setRepeat (sint32 s.arg) := by
  unfold setRepeatOp at h
  split at h
  · cases h
  · cases h; exact ⟨by omega, rfl⟩

/-! ## What no command body touches -/

/-- The fields no command writes after `issue`: STATUS but for BUSY, the operands, and the port. -/
structure KeepsOperands (s t : State) : Prop where
  overrun : t.overrun = s.overrun
  result : t.result = s.result
  lastOp : t.lastOp = s.lastOp
  arg : t.arg = s.arg
  fam : t.fam = s.fam
  grp : t.grp = s.grp
  dev : t.dev = s.dev
  inputs : t.inputs = s.inputs
  reply : t.reply = s.reply

theorem KeepsOperands.refl (s : State) : KeepsOperands s s := by constructor <;> rfl

theorem KeepsOperands.trans {s t u : State} (h : KeepsOperands s t) (k : KeepsOperands t u) : KeepsOperands s u := by
  constructor
  · exact k.overrun.trans h.overrun
  · exact k.result.trans h.result
  · exact k.lastOp.trans h.lastOp
  · exact k.arg.trans h.arg
  · exact k.fam.trans h.fam
  · exact k.grp.trans h.grp
  · exact k.dev.trans h.dev
  · exact k.inputs.trans h.inputs
  · exact k.reply.trans h.reply

theorem start_keepsOperands (p : Params) (s : State) : KeepsOperands s (start p s) := by
  unfold start; split <;> constructor <;> rfl

theorem encodeOp_keepsOperands {b : Bool} {s t : State} (h : encodeOp b s = .ok t) : KeepsOperands s t := by
  obtain ⟨k, l, -, rfl⟩ := encodeOp_eq_ok h; constructor <;> rfl

theorem expandOp_keepsOperands {s t : State} (h : expandOp s = .ok t) : KeepsOperands s t := by
  obtain ⟨-, rfl⟩ := expandOp_eq_ok h; constructor <;> rfl

theorem compileOp_keepsOperands {p : Params} {s t : State} (h : compileOp p s = .ok t) : KeepsOperands s t := by
  obtain ⟨-, rfl⟩ := compileOp_eq_ok h; constructor <;> rfl

theorem transmitOp_keepsOperands {p : Params} {s t : State} (h : transmitOp p s = .ok t) : KeepsOperands s t := by
  obtain ⟨-, rfl⟩ | ⟨-, -, rfl⟩ := transmitOp_eq_ok h
  · exact .refl _
  · exact start_keepsOperands p s

theorem commandBody_keepsOperands {i : Instr} {s t : State} (h : commandBody i s = .ok t) : KeepsOperands s t := by
  cases i with
  | encode b => exact encodeOp_keepsOperands h
  | expand => exact expandOp_keepsOperands h
  | compile => exact compileOp_keepsOperands h
  | transmit => exact transmitOp_keepsOperands h
  | send b =>
    obtain ⟨s1, s2, s3, h1, h2, h3, h4⟩ := sendOp_eq_ok h
    exact (encodeOp_keepsOperands h1).trans
      ((expandOp_keepsOperands h2).trans ((compileOp_keepsOperands h3).trans (transmitOp_keepsOperands h4)))
  | setProtocol => obtain ⟨-, -, rfl⟩ := setProtocolOp_eq_ok h; constructor <;> rfl
  | setRepeat => obtain ⟨-, rfl⟩ := setRepeatOp_eq_ok h; constructor <;> rfl

/-! ## Success and failure, told apart by RESULT -/

theorem ResultCode.toByte_eq_zero_iff (c : ResultCode) : c.toByte = 0x00 ↔ c = .ok := by cases c <;> decide

theorem typeA_error {g d : List Byte} {b : Bool} {c : ResultCode} (h : typeA g d b = .error c) : c ≠ .ok := by
  unfold typeA at h
  repeat' split at h
  all_goals cases h
  all_goals decide

theorem typeB_error {g d : Byte} {b : Bool} {c : ResultCode} (h : typeB g d b = .error c) : c ≠ .ok := by
  unfold typeB at h
  repeat' split at h
  all_goals cases h
  all_goals decide

theorem typeC_error {f g d : List Byte} {b : Bool} {c : ResultCode} (h : typeC f g d b = .error c) : c ≠ .ok := by
  unfold typeC at h
  repeat' split at h
  all_goals cases h
  all_goals decide

theorem typeD_error {g d : Byte} {b : Bool} {c : ResultCode} (h : typeD g d b = .error c) : c ≠ .ok := by
  unfold typeD at h
  repeat' split at h
  all_goals cases h
  all_goals decide

theorem asScheme_eq_error {k : Scheme} {r : Except ResultCode (List Tri)} {c : ResultCode} (h : asScheme k r = .error c) :
    r = .error c := by
  cases r <;> simp_all [asScheme]

theorem encodeFn_error {f g d : StringBuffer} {b : Bool} {c : ResultCode} (h : encodeFn f g d b = .error c) : c ≠ .ok := by
  unfold encodeFn dispatchScheme at h
  repeat' split at h
  all_goals first
    | exact typeA_error (asScheme_eq_error h)
    | exact typeB_error (asScheme_eq_error h)
    | exact typeC_error (asScheme_eq_error h)
    | exact typeD_error (asScheme_eq_error h)
    | (cases h; decide)

theorem expandOp_error {s : State} {c : ResultCode} (h : expandOp s = .error c) : c = .len := by
  unfold expandOp at h; split at h <;> cases h; rfl

theorem compileOp_error {p : Params} {s : State} {c : ResultCode} (h : compileOp p s = .error c) : c = .len := by
  unfold compileOp at h; split at h <;> cases h; rfl

theorem transmitOp_error {p : Params} {s : State} {c : ResultCode} (h : transmitOp p s = .error c) : c = .len := by
  unfold transmitOp at h
  repeat' split at h
  all_goals cases h
  rfl

theorem sendOp_error {p : Params} {b : Bool} {s : State} {c : ResultCode} (h : sendOp p b s = .error c) : c ≠ .ok := by
  unfold sendOp at h
  split at h
  · cases h; exact encodeFn_error (encodeOp_eq_error ‹_›)
  · split at h
    · cases h; simp [expandOp_error ‹_›]
    · split at h
      · cases h; simp [compileOp_error ‹_›]
      · simp [transmitOp_error h]

theorem commandBody_error {i : Instr} {s : State} {c : ResultCode} (h : commandBody i s = .error c) : c ≠ .ok := by
  cases i with
  | encode b => exact encodeFn_error (encodeOp_eq_error h)
  | expand => simp [expandOp_error h]
  | compile => simp [compileOp_error h]
  | transmit => simp [transmitOp_error h]
  | send b => exact sendOp_error h
  | setProtocol =>
    simp only [commandBody, setProtocolOp] at h
    split at h <;> cases h
    decide
  | setRepeat =>
    simp only [commandBody, setRepeatOp] at h
    split at h <;> cases h
    decide

/-- RESULT = OK means the body went through. -/
theorem exec_ok_body {i : Instr} {s t : State} (h : exec i s = .next t) (hr : t.result = 0x00) :
    commandBody i (s.beginCommand i.opcode) = .ok t := by
  obtain h | ⟨c, hc, rfl⟩ := exec_cases h
  · exact h
  · exact absurd ((ResultCode.toByte_eq_zero_iff c).mp hr) (commandBody_error hc)

/-- RESULT ≠ OK means the body raised that error, and nothing but STATUS is written (R223). -/
theorem exec_error_body {i : Instr} {s t : State} (h : exec i s = .next t) (hr : t.result ≠ 0x00) :
    ∃ c, commandBody i (s.beginCommand i.opcode) = .error c ∧ t = (s.beginCommand i.opcode).raise c := by
  obtain h | h := exec_cases h
  · exact absurd (by rw [(commandBody_keepsOperands h).result]; rfl) hr
  · exact h

end Sys2Proof.Machine
end

