-- ==== Sys2Proof/Laws/Encoder.lean ====
section
/-! SUPPORT. Strings, packed symbols, and the four generators: the codeword each one gives, and the error each check raises. -/

namespace Sys2Proof.Machine

/-! ## Packed symbols -/

theorem symbolAt_cons_zero (c : BitVec 2) (x : Word) : symbolAt (x <<< 2 ||| c.setWidth 32) 0 = c := by
  refine BitVec.eq_of_getLsbD_eq fun k hk => ?_
  simp only [symbolAt, BitVec.getLsbD_extractLsb', BitVec.getLsbD_or, BitVec.getLsbD_shiftLeft, BitVec.getLsbD_setWidth]
  interval_cases k <;> simp

theorem symbolAt_cons_succ (c : BitVec 2) (x : Word) {k : Nat} (hk : k + 1 < 16) :
    symbolAt (x <<< 2 ||| c.setWidth 32) (k + 1) = symbolAt x k := by
  refine BitVec.eq_of_getLsbD_eq fun j hj => ?_
  simp only [symbolAt, BitVec.getLsbD_extractLsb', BitVec.getLsbD_or, BitVec.getLsbD_shiftLeft, BitVec.getLsbD_setWidth]
  have hc : c.getLsbD (2 * (k + 1) + j) = false := BitVec.getLsbD_of_ge _ _ (by omega)
  have h1 : ¬2 * (k + 1) + j < 2 := by omega
  have h2 : 2 * (k + 1) + j < 32 := by omega
  simp [hj, hc, h1, h2, show 2 * (k + 1) + j - 2 = 2 * k + j by omega]

/-- A packed word holds its codes in order, and 0b00 in every place after them (R87, R100). -/
theorem symbolAt_packCodes (l : List (BitVec 2)) {k : Nat} (hk : k < 16) : symbolAt (packCodes l) k = l.getD k 0b00 := by
  induction l generalizing k with
  | nil => simp [packCodes, symbolAt]
  | cons c cs ih =>
    cases k with
    | zero => simpa [packCodes] using symbolAt_cons_zero c (packCodes cs)
    | succ k => rw [packCodes, symbolAt_cons_succ c _ hk, ih (by omega)]; simp

theorem symbolAt_packSymbols (t : List Tri) {k : Nat} (hk : k < 16) :
    symbolAt (packSymbols t) k = (t.map Tri.code).getD k 0b00 := symbolAt_packCodes _ hk

theorem Tri.code_ne_invalid (x : Tri) : x.code ≠ 0b01 := by cases x <;> decide

/-! ## Strings -/

theorem StringBuffer.bytes_of_len {f : StringBuffer} {n : Nat} (h : f.len.toNat = n) : f.bytes = f.allBytes.take n := by
  simp [bytes, h]

theorem StringBuffer.bytes_length {f : StringBuffer} (h : f.len.toNat ≤ 8) : f.bytes.length = f.len.toNat := by
  simp [bytes, allBytes]; omega

theorem StringBuffer.fits_iff (f : StringBuffer) : f.fits = true ↔ f.len.toNat ≤ 8 := decide_eq_true_iff

/-- Byte `k` of the string is byte `k` of the buffer, below LEN (R31). -/
theorem StringBuffer.bytes_getElem {f : StringBuffer} {k : Nat} (h : k < f.bytes.length) : f.bytes[k] = f.byte k := by
  have h8 : k < 8 := by simp [bytes, allBytes] at h; omega
  simp only [bytes, List.getElem_take]
  have h8' : k < f.allBytes.length := by simpa [allBytes] using h8
  interval_cases k <;> rfl

/-! ## What ENCODE and SEND do with the encoder's answer -/

@[simp] theorem stringsOf_beginCommand (s : State) (op : Byte) (b : Bool) :
    encodeFn (s.beginCommand op).fam (s.beginCommand op).grp (s.beginCommand op).dev b = encodeFn s.fam s.grp s.dev b := rfl

theorem exec_encode_ok {b : Bool} {s : State} {k : Scheme} {l : List Tri} (h : encodeFn s.fam s.grp s.dev b = .ok (k, l)) :
    exec (.encode b) s = .next ((s.beginCommand 0x01).setCodeword k l) :=
  exec_of_ok (i := .encode b) (by simp [commandBody, encodeOp, h, Instr.opcode])

theorem exec_encode_error {b : Bool} {s : State} {c : ResultCode} (h : encodeFn s.fam s.grp s.dev b = .error c) :
    exec (.encode b) s = .next ((s.beginCommand 0x01).raise c) :=
  exec_of_error (i := .encode b) (by simp [commandBody, encodeOp, h, Instr.opcode])

theorem exec_send_error {b : Bool} {s : State} {c : ResultCode} (h : encodeFn s.fam s.grp s.dev b = .error c) :
    exec (.send b) s = .next ((s.beginCommand 0x05).raise c) :=
  exec_of_error (i := .send b) (by simp [commandBody, sendOp, encodeOp, h, Instr.opcode])

/-! ## The length of every codeword -/

theorem length_oneHotB (n : Nat) : (oneHotB n).length = 4 := by simp [oneHotB]

theorem length_familySymbols (v : Nat) : (familySymbols v).length = 4 := by simp [familySymbols]

theorem length_conf (i : Nat) : (conf i).length = 2 := by simp [conf]

theorem length_oneHotD (n k : Nat) : (oneHotD n k).length = n := by simp [oneHotD]

theorem asScheme_eq_ok {k j : Scheme} {r : Except ResultCode (List Tri)} {t : List Tri} (h : asScheme k r = .ok (j, t)) :
    r = .ok t ∧ j = k := by
  cases r <;> simp_all [asScheme]

theorem typeA_length {g d : List Byte} {b : Bool} {t : List Tri} (h : typeA g d b = .ok t) : t.length = 12 := by
  unfold typeA at h
  repeat' split at h
  all_goals cases h
  all_goals simp_all

theorem typeB_length {g d : Byte} {b : Bool} {t : List Tri} (h : typeB g d b = .ok t) : t.length = 12 := by
  unfold typeB at h
  repeat' split at h
  all_goals cases h
  all_goals simp [length_oneHotB]

theorem typeC_length {f g d : List Byte} {b : Bool} {t : List Tri} (h : typeC f g d b = .ok t) : t.length = 12 := by
  unfold typeC at h
  repeat' split at h
  all_goals cases h
  all_goals simp [length_familySymbols, length_conf]

theorem typeD_length {g d : Byte} {b : Bool} {t : List Tri} (h : typeD g d b = .ok t) : t.length = 12 := by
  unfold typeD at h
  repeat' split at h
  all_goals cases h
  all_goals simp [length_oneHotD]

/-- "The codeword length is 12 symbols for every scheme" (R9). -/
theorem encodeFn_length {f g d : StringBuffer} {b : Bool} {k : Scheme} {t : List Tri} (h : encodeFn f g d b = .ok (k, t)) :
    t.length = 12 := by
  unfold encodeFn dispatchScheme at h
  repeat' split at h
  all_goals first
    | exact typeA_length (asScheme_eq_ok h).1
    | exact typeB_length (asScheme_eq_ok h).1
    | exact typeC_length (asScheme_eq_ok h).1
    | exact typeD_length (asScheme_eq_ok h).1
    | cases h

/-! ## Integers -/

theorem isDigit_iff (b : Byte) : isDigit b = true ↔ 0x30 ≤ b.toNat ∧ b.toNat ≤ 0x39 := by simp [isDigit]

theorem foldl_intValue (l : List Byte) (v : Nat) :
    l.foldl (fun v b => 10 * v + digitValue b) v = 10 ^ l.length * v + intValue l := by
  induction l generalizing v with
  | nil => simp [intValue]
  | cons b bs ih =>
    have e : intValue (b :: bs) = 10 ^ bs.length * digitValue b + intValue bs := by
      rw [intValue, List.foldl_cons, ih, Nat.mul_zero, Nat.zero_add]
    rw [List.foldl_cons, ih, e, List.length_cons, pow_succ]
    ring

/-- The value of a digit string, first digit most significant (R15). -/
theorem intValue_cons (b : Byte) (l : List Byte) : intValue (b :: l) = 10 ^ l.length * digitValue b + intValue l := by
  rw [intValue, List.foldl_cons, foldl_intValue, Nat.mul_zero, Nat.zero_add]

end Sys2Proof.Machine
end

