-- ==== Sys2Proof/Laws/Buffers.lean ====
section
/-! SUPPORT. The bits EXPAND writes and the waveforms COMPILE writes. -/

namespace Sys2Proof.Machine

/-! ## Packed bits -/

/-- Bit `k` of a packed binary string is its element `k`, and 0 past its end (R38, R154). -/
theorem getLsbD_packBits (l : List Bool) {k : Nat} (hk : k < 32) : (packBits l).getLsbD k = l.getD k false := by
  induction l generalizing k with
  | nil => simp [packBits]
  | cons b bs ih =>
    simp only [packBits, BitVec.getLsbD_or, BitVec.getLsbD_shiftLeft, BitVec.getLsbD_setWidth, BitVec.getLsbD_ofBool]
    cases k with
    | zero => simp
    | succ k => simp [hk, ih (by omega : k < 32)]

/-! ## EXPAND -/

theorem expandBits_succ (d : Word) (n : Nat) : expandBits d (n + 1) = expandBits d n ++ expandCode (symbolAt d n) := by
  simp [expandBits, List.range_succ]

/-- A symbol expands to its two bits, the skipped code to none (R151, R152). -/
theorem expandCode_valid {c : BitVec 2} (h : c ≠ 0b01) : expandCode c = [c.getLsbD 0, c.getLsbD 1] := if_neg h

theorem expandCode_skipped : expandCode 0b01 = [] := rfl

/-- Without the skipped code the expansion has two bits a symbol (R153). -/
theorem length_expandBits_valid {d : Word} {n : Nat} (h : ∀ i, i < n → symbolAt d i ≠ 0b01) :
    (expandBits d n).length = 2 * n := by
  induction n with
  | zero => rfl
  | succ n ih =>
    rw [expandBits_succ, List.length_append, ih fun i hi => h i (by omega), expandCode_valid (h n (by omega))]
    simp; omega

/-- Without the skipped code the expansion is the codeword's own bits (R155). -/
theorem getElem_expandBits_valid {d : Word} {n k : Nat} (h : ∀ i, i < n → symbolAt d i ≠ 0b01) (hk : k < 2 * n) :
    (expandBits d n).getD k false = d.getLsbD k := by
  induction n with
  | zero => omega
  | succ n ih =>
    have hl := length_expandBits_valid fun i (hi : i < n) => h i (by omega)
    rw [expandBits_succ, expandCode_valid (h n (by omega))]
    by_cases hn : k < 2 * n
    · rw [List.getD_append _ _ _ _ (by omega)]
      exact ih (fun i hi => h i (by omega)) hn
    · rw [List.getD_append_right _ _ _ _ (by omega), hl]
      obtain rfl | rfl : k = 2 * n ∨ k = 2 * n + 1 := by omega
      · simp [symbolAt]
      · simp [symbolAt]

/-- EXPAND on valid symbols: the codeword's bits, the tail cleared (R155). -/
theorem packBits_expandBits_valid {d : Word} {n : Nat} (h : ∀ i, i < n → symbolAt d i ≠ 0b01) (k : Nat) :
    (packBits (expandBits d n)).getLsbD k = (decide (k < 2 * n) && d.getLsbD k) := by
  by_cases hk : k < 32
  · rw [getLsbD_packBits _ hk]
    by_cases h2 : k < 2 * n
    · rw [getElem_expandBits_valid h h2]; simp [h2]
    · rw [List.getD_eq_default _ _ (by rw [length_expandBits_valid h]; omega)]; simp [h2]
  · rw [BitVec.getLsbD_of_ge _ _ (by omega), BitVec.getLsbD_of_ge _ _ (by omega)]; simp

/-! ## COMPILE -/

theorem highCount_waveWord (w : Waveform) : highCount (waveWord w) = w.high := by
  refine BitVec.eq_of_getLsbD_eq fun k hk => ?_
  simp only [highCount, waveWord, BitVec.getLsbD_extractLsb', hk, decide_true, Bool.true_and, Nat.zero_add]
  exact (BitVec.getLsbD_append (x := w.low) (y := w.high)).trans (by simp [hk])

theorem lowCount_waveWord (w : Waveform) : lowCount (waveWord w) = w.low := by
  refine BitVec.eq_of_getLsbD_eq fun k hk => ?_
  simp only [lowCount, waveWord, BitVec.getLsbD_extractLsb', hk, decide_true, Bool.true_and]
  exact (BitVec.getLsbD_append (x := w.low) (y := w.high)).trans (by simp)

theorem compiledEntry_data (q : Protocol) (d : Word) {n i : Nat} (h : i < n) :
    compiledEntry q d n i = waveWord (if d.getLsbD i then q.oneBit else q.zeroBit) := if_pos h

theorem compiledEntry_sync (q : Protocol) (d : Word) (n : Nat) : compiledEntry q d n n = waveWord q.syncBit := by
  simp [compiledEntry]

theorem compiledEntry_tail (q : Protocol) (d : Word) {n i : Nat} (h : n < i) : compiledEntry q d n i = 0 := by
  simp [compiledEntry, show ¬i < n by omega, show i ≠ n by omega]

/-! ## SEND's pipeline -/

/-- What a successful encoder hands on: the first 24 bits of its word are the codeword, the rest are 0 (R103). -/
theorem packSymbols_high (t : List Tri) (ht : t.length = 12) {k : Nat} (hk : 24 ≤ k) : (packSymbols t).getLsbD k = false := by
  by_cases h32 : k < 32
  · have := symbolAt_packSymbols t (k := k / 2) (by omega)
    rw [List.getD_eq_default _ _ (by simp; omega)] at this
    have h2 := congrArg (fun v => v.getLsbD (k % 2)) this
    simp only [symbolAt, BitVec.getLsbD_extractLsb', show k % 2 < 2 by omega, decide_true, Bool.true_and,
      show 2 * (k / 2) + k % 2 = k by omega] at h2
    rw [h2]; simp
  · exact BitVec.getLsbD_of_ge _ _ (by omega)

theorem symbolAt_packSymbols_valid (t : List Tri) (ht : t.length = 12) {i : Nat} (hi : i < 12) :
    symbolAt (packSymbols t) i ≠ 0b01 := by
  rw [symbolAt_packSymbols _ (by omega), List.getD_eq_getElem _ _ (by simp; omega), List.getElem_map]
  exact Tri.code_ne_invalid _

/-- EXPAND on an encoder's word gives the word back, with 24 bits (R155, R182). -/
theorem expandOp_setCodeword (s : State) (k : Scheme) {t : List Tri} (ht : t.length = 12) :
    expandOp (s.setCodeword k t) =
      .ok { s.setCodeword k t with binLen := 24, binData := packSymbols t } := by
  have hv : ∀ i, i < 12 → symbolAt (packSymbols t) i ≠ 0b01 := fun i hi => symbolAt_packSymbols_valid t ht hi
  have hb : packBits (expandBits (packSymbols t) 12) = packSymbols t := by
    refine BitVec.eq_of_getLsbD_eq fun j _ => ?_
    rw [packBits_expandBits_valid hv]
    by_cases h : j < 2 * 12
    · simp [h]
    · rw [packSymbols_high t ht (by omega : 24 ≤ j)]; simp
  have hl : BitVec.ofNat 8 (expandBits (packSymbols t) 12).length = 24 := by rw [length_expandBits_valid hv]; rfl
  unfold expandOp
  rw [if_neg (by simp [cwCap])]
  simp only [State.setBinary, State.setCodeword_cwData, State.setCodeword_cwLen]
  rw [show BitVec.toNat (12 : Byte) = 12 from rfl, hb, hl]

end Sys2Proof.Machine
end

