-- ==== Sys2Proof/Laws/Sequencer.lean ====
section
/-! SUPPORT. What one sequencer step can do, said once: the segments still to begin and the edges still to go, and how a step
counts them down (spec 43_transmitter.md R171 to R179). -/

namespace Sys2Proof.Machine

/-! ## Frames -/

/-- The sequencer's own fields of two states: all the others are equal (R46). -/
def State.withSequencer (s t : State) : State :=
  { s with
    busy := t.busy, repLeft := t.repLeft, wfIdx := t.wfIdx, phase := t.phase, holdLeft := t.holdLeft,
    startLeft := t.startLeft, txOut := t.txOut }

/-- A position moves only REP_LEFT, WF_IDX and PHASE. -/
theorem advance_eq_some {p : Params} {s t : State} (h : advance p s = some t) :
    t = { s with repLeft := t.repLeft, wfIdx := t.wfIdx, phase := t.phase } := by
  unfold advance at h
  split at h
  · cases h; rfl
  · split at h
    · cases h; rfl
    · split at h
      · cases h
      · cases h; rfl

/-- A sequencer step changes the sequencer's own fields and nothing else. -/
theorem seqStep_frame (p : Params) (s : State) : seqStep p s = s.withSequencer (seqStep p s) := by
  unfold seqStep
  split
  · split <;> rfl
  · split
    · rfl
    · split
      · rename_i t h
        rw [advance_eq_some h]; rfl
      · rfl

theorem sequencerEdge_frame (p : Params) (s : State) : sequencerEdge p s = s.withSequencer (sequencerEdge p s) := by
  unfold sequencerEdge
  split
  · exact seqStep_frame p s
  · rfl

theorem sequencerEdge_idle (p : Params) {s : State} (h : s.busy = false) : sequencerEdge p s = s := by
  simp [sequencerEdge, h]

theorem sequencerEdge_busy (p : Params) {s : State} (h : s.busy = true) : sequencerEdge p s = seqStep p s := by
  simp [sequencerEdge, h]

/-! ## The port does not reach the sequencer -/

/-- A state with another port. -/
def State.withPort (s : State) (i : List EdgeInput) (r : Option Word) : State := { s with inputs := i, reply := r }

theorem advance_withPort (p : Params) (s : State) (i : List EdgeInput) (r : Option Word) :
    advance p (s.withPort i r) = (advance p s).map fun t => t.withPort i r := by
  unfold advance
  by_cases hp : s.phase = false
  · rw [if_pos hp, if_pos (show (s.withPort i r).phase = false from hp)]; rfl
  · rw [if_neg hp, if_neg (show ¬(s.withPort i r).phase = false from hp)]
    by_cases hn : s.wfIdx.toNat + 1 < s.wfLen.toNat
    · rw [if_pos hn, if_pos (show (s.withPort i r).wfIdx.toNat + 1 < (s.withPort i r).wfLen.toNat from hn)]; rfl
    · rw [if_neg hn, if_neg (show ¬(s.withPort i r).wfIdx.toNat + 1 < (s.withPort i r).wfLen.toNat from hn)]
      by_cases hr : repDown p s.repLeft = 0
      · rw [if_pos hr, if_pos (show repDown p (s.withPort i r).repLeft = 0 from hr)]; rfl
      · rw [if_neg hr, if_neg (show ¬repDown p (s.withPort i r).repLeft = 0 from hr)]; rfl

theorem seqStep_withPort (p : Params) (s : State) (i : List EdgeInput) (r : Option Word) :
    seqStep p (s.withPort i r) = (seqStep p s).withPort i r := by
  unfold seqStep
  by_cases h0 : 0 < s.startLeft
  · rw [if_pos h0, if_pos (show 0 < (s.withPort i r).startLeft from h0)]
    by_cases h1 : s.startLeft = 1
    · rw [if_pos h1, if_pos (show (s.withPort i r).startLeft = 1 from h1)]; rfl
    · rw [if_neg h1, if_neg (show ¬(s.withPort i r).startLeft = 1 from h1)]; rfl
  · rw [if_neg h0, if_neg (show ¬0 < (s.withPort i r).startLeft from h0)]
    by_cases hh : 0 < holdDown p s.holdLeft
    · rw [if_pos hh, if_pos (show 0 < holdDown p (s.withPort i r).holdLeft from hh)]; rfl
    · rw [if_neg hh, if_neg (show ¬0 < holdDown p (s.withPort i r).holdLeft from hh)]
      show (match advance p (State.withPort { s with holdLeft := 0 } i r) with
        | some t => beginSegment p t
        | none => finish (s.withPort i r)) = _
      rw [advance_withPort]
      cases advance p { s with holdLeft := 0 } <;> rfl

theorem sequencerEdge_withPort (p : Params) (s : State) (i : List EdgeInput) (r : Option Word) :
    sequencerEdge p (s.withPort i r) = (sequencerEdge p s).withPort i r := by
  unfold sequencerEdge
  by_cases h : s.busy = true
  · rw [if_pos h, if_pos (show (s.withPort i r).busy = true from h), seqStep_withPort]
  · rw [if_neg h, if_neg (show ¬(s.withPort i r).busy = true from h)]

/-! ## What is left of a transmission -/

/-- A transmission under way, as far as counting needs it: a position inside the sequence and inside the frames, and either a
start latency to wait for or a segment with cycles left whose level is on the pin. -/
structure Running (p : Params) (s : State) : Prop where
  busy : s.busy = true
  fits : s.wfLen.toNat ≤ 33
  index : s.wfIdx.toNat < s.wfLen.toNat
  frames : 1 ≤ s.repLeft.toNat
  driving : s.startLeft = 0 → 1 ≤ s.holdLeft ∧ s.txOut = segmentLevel p s

/-- The segment of phase `b` of WF[i]. -/
def segmentAt (p : Params) (s : State) (b : Bool) (i : Nat) : Segment :=
  { level := if b then secondLevel (s.proto p) else firstLevel (s.proto p),
    units := if b then lowCount (wfEntry p s i) else highCount (wfEntry p s i) }

/-- The segments after that one with `r` frames left: the rest of the waveform, of the frame, of the frames. -/
def segmentsFrom (p : Params) (s : State) (b : Bool) (i r : Nat) : List Segment :=
  (if b then [] else [segmentAt p s true i]) ++
    ((List.range' (i + 1) (s.wfLen.toNat - (i + 1))).flatMap (waveSegments p s) ++
      (List.replicate (r - 1) (frameOf p s)).flatten)

/-- The segments after the one at the sequencer's position. -/
def segmentsAfter (p : Params) (s : State) : List Segment := segmentsFrom p s s.phase s.wfIdx.toNat s.repLeft.toNat

theorem currentSegment_eq (p : Params) (s : State) : currentSegment p s = segmentAt p s s.phase s.wfIdx.toNat := rfl

theorem waveSegments_eq (p : Params) (s : State) (i : Nat) :
    waveSegments p s i = [segmentAt p s false i, segmentAt p s true i] := rfl

theorem segmentsFrom_high (p : Params) (s : State) (i r : Nat) :
    segmentsFrom p s false i r = segmentAt p s true i :: segmentsFrom p s true i r := rfl

theorem segmentsFrom_low (p : Params) (s : State) {i : Nat} (r : Nat) (h : i + 1 < s.wfLen.toNat) :
    segmentsFrom p s true i r = segmentAt p s false (i + 1) :: segmentsFrom p s false (i + 1) r := by
  have hk : s.wfLen.toNat - (i + 1) = s.wfLen.toNat - (i + 1 + 1) + 1 := by omega
  unfold segmentsFrom
  rw [hk, List.range'_succ, List.flatMap_cons, waveSegments_eq]
  rfl

/-- A frame is its first segment and what follows it. -/
theorem frameOf_eq (p : Params) {s : State} (h : 1 ≤ s.wfLen.toNat) :
    frameOf p s = segmentAt p s false 0 :: segmentsFrom p s false 0 1 := by
  have hw : s.wfLen.toNat = s.wfLen.toNat - (0 + 1) + 1 := by omega
  unfold frameOf segmentsFrom
  rw [hw, List.range_eq_range', List.range'_succ, List.flatMap_cons, waveSegments_eq, ← hw]
  simp

theorem segmentsFrom_frames (p : Params) (s : State) (b : Bool) (i r : Nat) :
    segmentsFrom p s b i r = segmentsFrom p s b i 1 ++ (List.replicate (r - 1) (frameOf p s)).flatten := by
  simp [segmentsFrom]

theorem segmentsFrom_frame (p : Params) {s : State} {i r : Nat} (h1 : 1 ≤ s.wfLen.toNat) (h : s.wfLen.toNat ≤ i + 1)
    (hr : 2 ≤ r) :
    segmentsFrom p s true i r = segmentAt p s false 0 :: segmentsFrom p s false 0 (r - 1) := by
  have h0 : s.wfLen.toNat - (i + 1) = 0 := by omega
  have hk : r - 1 = r - 1 - 1 + 1 := by omega
  rw [segmentsFrom_frames p s false 0 (r - 1), ← List.cons_append, ← frameOf_eq p h1, ← List.flatten_cons,
    ← List.replicate_succ, ← hk]
  simp [segmentsFrom, h0]

theorem segmentsFrom_last (p : Params) {s : State} {i : Nat} (h : s.wfLen.toNat ≤ i + 1) :
    segmentsFrom p s true i 1 = [] := by
  simp [segmentsFrom, show s.wfLen.toNat - (i + 1) = 0 by omega]

/-- The segments still to begin. -/
def pending (p : Params) (s : State) : List Segment :=
  if s.startLeft = 0 then segmentsAfter p s else currentSegment p s :: segmentsAfter p s

/-- The edges still to go before BUSY falls. -/
def remaining (p : Params) (s : State) : Nat :=
  s.startLeft + (if s.startLeft = 0 then s.holdLeft else 0) + cyclesOf p (s.proto p) (pending p s)

@[simp] theorem cyclesOf_nil (p : Params) (q : Protocol) : cyclesOf p q [] = 0 := rfl

@[simp] theorem cyclesOf_cons (p : Params) (q : Protocol) (g : Segment) (l : List Segment) :
    cyclesOf p q (g :: l) = dur p q g.units + cyclesOf p q l := by simp [cyclesOf]

@[simp] theorem cyclesOf_append (p : Params) (q : Protocol) (l m : List Segment) :
    cyclesOf p q (l ++ m) = cyclesOf p q l + cyclesOf p q m := by simp [cyclesOf]

theorem dur_pos (p : Params) (q : Protocol) (n : Byte) : 1 ≤ dur p q n := Nat.le_max_left _ _

/-- A positive REP_LEFT counts down by one. -/
theorem repDown_of_pos (p : Params) {r : BitVec 31} (h : 1 ≤ r.toNat) : repDown p r = r - 1 :=
  if_neg fun e => by rw [e] at h; simp at h

theorem toNat_pred {r : BitVec 31} (h : 1 ≤ r.toNat) : (r - 1).toNat = r.toNat - 1 := by
  have := r.isLt
  rw [BitVec.toNat_sub]; simp; omega

theorem toNat_repDown (p : Params) {r : BitVec 31} (h : 1 ≤ r.toNat) : (repDown p r).toNat = r.toNat - 1 := by
  rw [repDown_of_pos p h, toNat_pred h]

/-- A WF_IDX below 63 counts up by one. -/
theorem idxUp_of_lt (p : Params) {i : BitVec 6} (h : i.toNat < 63) : idxUp p i = i + 1 :=
  if_neg fun e => by rw [e] at h; simp at h

theorem toNat_idxUp (p : Params) {i : BitVec 6} (h : i.toNat < 63) : (idxUp p i).toNat = i.toNat + 1 := by
  rw [idxUp_of_lt p h, BitVec.toNat_add]; simp; omega

/-- What `advance` answers, by the segments left: the position of the next segment, or nothing after the last. -/
theorem advance_spec (p : Params) {s : State} (hl : s.wfLen.toNat ≤ 33) (hi : s.wfIdx.toNat < s.wfLen.toNat)
    (hr : 1 ≤ s.repLeft.toNat) :
    (∃ t, advance p s = some t ∧ segmentsAfter p s = currentSegment p t :: segmentsAfter p t ∧
      t.wfIdx.toNat < s.wfLen.toNat ∧ 1 ≤ t.repLeft.toNat ∧ t.repLeft.toNat ≤ s.repLeft.toNat) ∨
    (advance p s = none ∧ segmentsAfter p s = [] ∧ s.phase = true ∧ s.wfIdx.toNat + 1 = s.wfLen.toNat ∧
      s.repLeft.toNat = 1) := by
  unfold advance
  by_cases hp : s.phase = false
  · left
    rw [if_pos hp]
    refine ⟨_, rfl, ?_, hi, hr, le_refl _⟩
    rw [segmentsAfter, hp, segmentsFrom_high]
    rfl
  · have hp' : s.phase = true := by simpa using hp
    rw [if_neg hp]
    by_cases hn : s.wfIdx.toNat + 1 < s.wfLen.toNat
    · left
      rw [if_pos hn]
      have hs : (idxUp p s.wfIdx).toNat = s.wfIdx.toNat + 1 := toNat_idxUp p (by omega)
      refine ⟨_, rfl, ?_, by simpa only [hs] using hn, hr, le_refl _⟩
      rw [segmentsAfter, hp', segmentsFrom_low p s _ hn, ← hs]
      rfl
    · rw [if_neg hn]
      by_cases h0 : repDown p s.repLeft = 0
      · right
        rw [if_pos h0]
        have h1 : s.repLeft.toNat = 1 := by
          have := congrArg BitVec.toNat h0
          rw [toNat_repDown p hr] at this; simp at this; omega
        exact ⟨rfl, by rw [segmentsAfter, hp', h1, segmentsFrom_last p (by omega)], hp', by omega, h1⟩
      · left
        rw [if_neg h0]
        have h2 : 2 ≤ s.repLeft.toNat := by
          by_contra h
          exact h0 (BitVec.eq_of_toNat_eq (by rw [toNat_repDown p hr]; simp; omega))
        have hs : (repDown p s.repLeft).toNat = s.repLeft.toNat - 1 := toNat_repDown p hr
        refine ⟨_, rfl, ?_, by simp; omega, by rw [hs]; omega, by rw [hs]; omega⟩
        rw [segmentsAfter, hp', segmentsFrom_frame p (by omega) (by omega) h2, ← hs]
        rfl

/-! ## One step -/

/-- A step of a transmission under way: it goes on, one edge nearer its end, with the segments begun at this step taken off
those to begin; or it was the last edge of the last segment, and the sequencer is idle. -/
theorem seqStep_spec (p : Params) {s : State} (h : Running p s) :
    (Running p (seqStep p s) ∧ remaining p s = remaining p (seqStep p s) + 1 ∧
      pending p s = stepDrives p s (seqStep p s) ++ pending p (seqStep p s) ∧
      (seqStep p s).repLeft.toNat ≤ s.repLeft.toNat) ∨
    (seqStep p s = finish s ∧ remaining p s = 1 ∧ pending p s = [] ∧ s.startLeft = 0 ∧
      s.holdLeft = 1 ∧ s.phase = true ∧ s.wfIdx.toNat + 1 = s.wfLen.toNat ∧ s.repLeft.toNat = 1) := by
  obtain ⟨hb, hf, hi, hr, hd⟩ := h
  by_cases h0 : 0 < s.startLeft
  · left
    by_cases h1 : s.startLeft = 1
    · have e : seqStep p s = beginSegment p { s with startLeft := 0 } := by rw [seqStep, if_pos h0, if_pos h1]
      rw [e]
      refine ⟨⟨hb, hf, hi, hr, fun _ => ⟨dur_pos _ _ _, rfl⟩⟩, ?_, ?_, le_refl _⟩
      · have e1 : remaining p s = 1 + 0 + (dur p (s.proto p) (segmentCount p s) + cyclesOf p (s.proto p) (segmentsAfter p s)) := by
          simp only [remaining, pending, h1, if_neg (show ¬(1 : Nat) = 0 by decide), cyclesOf_cons]
          rfl
        have e2 : remaining p (beginSegment p { s with startLeft := 0 }) =
            0 + dur p (s.proto p) (segmentCount p s) + cyclesOf p (s.proto p) (segmentsAfter p s) := rfl
        omega
      · simp only [pending, h1, stepDrives, segmentDue, State.beginSegment_busy, hb]
        rfl
    · have e : seqStep p s = { s with startLeft := s.startLeft - 1 } := by rw [seqStep, if_pos h0, if_neg h1]
      have h2 : ¬s.startLeft = 0 := by omega
      have h3 : ¬s.startLeft - 1 = 0 := by omega
      rw [e]
      refine ⟨⟨hb, hf, hi, hr, fun h => absurd h h3⟩, ?_, ?_, le_refl _⟩
      · have e1 : remaining p s = s.startLeft + 0 + cyclesOf p (s.proto p) (currentSegment p s :: segmentsAfter p s) := by
          simp only [remaining, pending, if_neg h2]
        have e2 : remaining p { s with startLeft := s.startLeft - 1 } =
            s.startLeft - 1 + 0 + cyclesOf p (s.proto p) (currentSegment p s :: segmentsAfter p s) := by
          simp only [remaining, pending, if_neg h3]
          rfl
        omega
      · simp only [pending, if_neg h2, if_neg h3, stepDrives, segmentDue, beq_eq_false_iff_ne.mpr h1,
          beq_eq_false_iff_ne.mpr h2]
        rfl
  · have hs : s.startLeft = 0 := by omega
    obtain ⟨hh, ht⟩ := hd hs
    have hdown : holdDown p s.holdLeft = s.holdLeft - 1 := if_neg (by omega)
    have hrem : remaining p s = s.holdLeft + cyclesOf p (s.proto p) (segmentsAfter p s) := by
      simp only [remaining, pending, hs, if_true, Nat.zero_add]
    have hpend : pending p s = segmentsAfter p s := by simp only [pending, hs, if_true]
    by_cases h1 : s.holdLeft = 1
    · have hz : ¬0 < holdDown p s.holdLeft := by omega
      rcases advance_spec p (s := { s with holdLeft := 0 }) hf hi hr with ⟨t, ha, hseg, hti, htr, hle⟩ | ⟨ha, hseg, hp, hw, hr1⟩
      · left
        have e : seqStep p s = beginSegment p t := by rw [seqStep, if_neg h0, if_neg hz, ha]
        have hfr := advance_eq_some ha
        have hseg' : segmentsAfter p s = currentSegment p t :: segmentsAfter p t := hseg
        have tb : t.busy = true := by rw [hfr]; exact hb
        have ts : t.startLeft = 0 := by rw [hfr]; exact hs
        have tw : t.wfLen = s.wfLen := by rw [hfr]
        have tp : t.proto p = s.proto p := by rw [hfr]; rfl
        rw [e]
        refine ⟨⟨tb, by rw [State.beginSegment_wfLen, tw]; exact hf, by rw [State.beginSegment_wfLen, tw]; exact hti, htr,
          fun _ => ⟨dur_pos _ _ _, rfl⟩⟩, ?_, ?_, hle⟩
        · have e2 : remaining p (beginSegment p t) =
              dur p (s.proto p) (segmentCount p t) + cyclesOf p (s.proto p) (segmentsAfter p t) := by
            simp only [remaining, pending, State.beginSegment_startLeft, ts, if_true, Nat.zero_add, State.beginSegment_holdLeft, tp]
            rw [show (beginSegment p t).proto p = s.proto p from tp]
            rfl
          have e3 : cyclesOf p (s.proto p) (segmentsAfter p s) =
              dur p (s.proto p) (segmentCount p t) + cyclesOf p (s.proto p) (segmentsAfter p t) := by
            rw [hseg', cyclesOf_cons]; rfl
          omega
        · rw [hpend, hseg']
          simp only [stepDrives, segmentDue, hs, h1, State.beginSegment_busy, tb, pending, State.beginSegment_startLeft, ts]
          rfl
      · right
        have e : seqStep p s = finish s := by rw [seqStep, if_neg h0, if_neg hz, ha]
        have hseg' : segmentsAfter p s = [] := hseg
        refine ⟨e, ?_, by rw [hpend, hseg'], hs, h1, hp, hw, hr1⟩
        rw [hrem, h1, hseg']; rfl
    · left
      have hz : 0 < holdDown p s.holdLeft := by omega
      have e : seqStep p s = { s with holdLeft := holdDown p s.holdLeft } := by rw [seqStep, if_neg h0, if_pos hz]
      rw [e, hdown]
      refine ⟨⟨hb, hf, hi, hr, fun _ => ⟨by show 1 ≤ s.holdLeft - 1; omega, ht⟩⟩, ?_, ?_, le_refl _⟩
      · have e2 : remaining p { s with holdLeft := s.holdLeft - 1 } =
            s.holdLeft - 1 + cyclesOf p (s.proto p) (segmentsAfter p s) := by
          simp only [remaining, pending, hs, if_true, Nat.zero_add]
          rfl
        omega
      · have hn : (holdDown p s.holdLeft == 0) = false := beq_eq_false_iff_ne.mpr (by omega)
        simp only [pending, hs, if_true, stepDrives, segmentDue, hn]
        rfl

/-! ## Runs -/

/-- The state a transmission of `s` ends in (R175, R176). -/
def ended (p : Params) (s : State) : State :=
  { s with
    busy := false, repLeft := 0, wfIdx := 0, phase := false, holdLeft := 0, startLeft := 0,
    txOut := (s.proto p).inverted }

theorem ended_congr {p : Params} {s t : State} (h : t = s.withSequencer t) : ended p t = ended p s := by
  rw [h]; rfl

/-- Before its end a transmission is under way, its remaining edges count down, and what began is what was pending. -/
theorem runSequencer_running (p : Params) {k : Nat} {s : State} (h : Running p s) (hk : k < remaining p s) :
    Running p (runSequencer p k s).1 ∧ remaining p s = remaining p (runSequencer p k s).1 + k ∧
      pending p s = (runSequencer p k s).2 ++ pending p (runSequencer p k s).1 ∧
      (runSequencer p k s).1 = s.withSequencer (runSequencer p k s).1 := by
  induction k generalizing s with
  | zero => exact ⟨h, rfl, rfl, rfl⟩
  | succ k ih =>
    rcases seqStep_spec p h with ⟨hr, he, hp, -⟩ | ⟨-, h1, -⟩
    · obtain ⟨i1, i2, i3, i4⟩ := ih hr (by omega)
      have hs : sequencerEdge p s = seqStep p s := sequencerEdge_busy p h.busy
      simp only [runSequencer, hs, h.busy, if_true]
      refine ⟨i1, by omega, by rw [hp, i3, List.append_assoc], ?_⟩
      rw [i4, seqStep_frame p s]; rfl
    · omega

/-- At its last edge a transmission has begun everything that was pending, and has ended. -/
theorem runSequencer_ended (p : Params) {s : State} (h : Running p s) :
    runSequencer p (remaining p s) s = (ended p s, pending p s) := by
  generalize hn : remaining p s = n
  induction n generalizing s with
  | zero =>
    rcases seqStep_spec p h with ⟨-, he, -, -⟩ | ⟨-, h1, -⟩ <;> omega
  | succ n ih =>
    have hs : sequencerEdge p s = seqStep p s := sequencerEdge_busy p h.busy
    rcases seqStep_spec p h with ⟨hr, he, hp, -⟩ | ⟨hf, h1, hp, h0, hh, hph, -⟩
    · simp only [runSequencer, hs, h.busy, if_true, ih hr (by omega), ← hp]
      rw [ended_congr (seqStep_frame p s)]
    · obtain rfl : n = 0 := by omega
      simp only [runSequencer, hs, h.busy, if_true, hf, hp, stepDrives]
      have ht := (h.driving h0).2
      rw [segmentLevel, hph, if_pos rfl, secondLevel] at ht
      simp only [State.finish_busy, Bool.and_false, List.append_nil]
      refine Prod.ext ?_ rfl
      show finish s = ended p s
      unfold finish ended
      rw [← h0, ← ht]

/-! ## A bound -/

theorem dur_le (p : Params) (q : Protocol) (n : Byte) : dur p q n ≤ max 1 (255 * 65535 * p.ticksPerUs) := by
  have h1 : n.toNat * q.pulseUnit.toNat ≤ 255 * 65535 :=
    Nat.mul_le_mul (Nat.le_of_lt_succ n.isLt) (Nat.le_of_lt_succ q.pulseUnit.isLt)
  have h2 := Nat.mul_le_mul_right p.ticksPerUs h1
  unfold dur
  omega

theorem cyclesOf_le (p : Params) (q : Protocol) (l : List Segment) :
    cyclesOf p q l ≤ l.length * max 1 (255 * 65535 * p.ticksPerUs) := by
  induction l with
  | nil => simp
  | cons g l ih =>
    rw [cyclesOf_cons, List.length_cons, Nat.add_one_mul]
    have := dur_le p q g.units
    omega

theorem length_waves (p : Params) (s : State) (l : List Nat) : (l.flatMap (waveSegments p s)).length = 2 * l.length := by
  induction l with
  | nil => rfl
  | cons i l ih => rw [List.flatMap_cons, List.length_append, ih]; simp [waveSegments]; omega

theorem length_segmentsFrom (p : Params) {s : State} (b : Bool) {i r : Nat} (hi : i < s.wfLen.toNat) (hr : 1 ≤ r) :
    (segmentsFrom p s b i r).length + 1 ≤ 2 * s.wfLen.toNat * r := by
  have h1 : (frameOf p s).length = 2 * s.wfLen.toNat := by rw [frameOf, length_waves, List.length_range]
  have h2 : (if b then ([] : List Segment) else [segmentAt p s true i]).length ≤ 1 := by cases b <;> simp
  obtain ⟨m, rfl⟩ : ∃ m, r = m + 1 := ⟨r - 1, by omega⟩
  unfold segmentsFrom
  rw [List.length_append, List.length_append, length_waves, List.length_range', List.length_flatten, List.map_replicate,
    List.sum_replicate_nat, h1, Nat.mul_add, Nat.add_sub_cancel, Nat.mul_comm m]
  omega

/-- The edges still to go, at most: as if every segment took the longest time (R188). -/
theorem remaining_le (p : Params) {s : State} (h : Running p s)
    (hh : s.startLeft = 0 → s.holdLeft ≤ max 1 (255 * 65535 * p.ticksPerUs)) :
    remaining p s ≤ s.startLeft + s.repLeft.toNat * (2 * s.wfLen.toNat * max 1 (255 * 65535 * p.ticksPerUs)) := by
  generalize hD : max 1 (255 * 65535 * p.ticksPerUs) = D at hh ⊢
  have hlen := length_segmentsFrom p s.phase h.index h.frames
  have hc := cyclesOf_le p (s.proto p) (segmentsAfter p s)
  rw [hD] at hc
  have hm : ((segmentsAfter p s).length + 1) * D ≤ 2 * s.wfLen.toNat * s.repLeft.toNat * D := Nat.mul_le_mul_right D hlen
  rw [Nat.add_one_mul] at hm
  have he : s.repLeft.toNat * (2 * s.wfLen.toNat * D) = 2 * s.wfLen.toNat * s.repLeft.toNat * D := by ring
  rw [he]
  unfold remaining pending
  by_cases h0 : s.startLeft = 0
  · have := hh h0
    simp only [h0, if_true]
    omega
  · have hd := dur_le p (s.proto p) (currentSegment p s).units
    rw [hD] at hd
    simp only [if_neg h0, cyclesOf_cons]
    omega

/-! ## Starting -/

/-- `start()` in terms of counting: the transmission is under way with TX_START_LAT and all its segments' cycles to go, and its
segments are the train (R171, R175, R177). -/
theorem start_spec (p : Params) {s : State} (h0 : s.startLeft = 0) (h1 : 1 ≤ s.wfLen.toNat) (h2 : s.wfLen.toNat ≤ 33)
    (h3 : 1 ≤ s.repeatCount.toNat) :
    Running p (start p s) ∧ remaining p (start p s) = p.txStartLat + transmissionCycles p s ∧
      startDrives p (start p s) ++ pending p (start p s) = train p s := by
  have hk : s.repeatCount.toNat = s.repeatCount.toNat - 1 + 1 := by omega
  have htrain : train p s = segmentAt p s false 0 :: segmentsFrom p s false 0 s.repeatCount.toNat := by
    rw [train, hk, List.replicate_succ, List.flatten_cons, frameOf_eq p h1, ← hk, List.cons_append]
    rw [segmentsFrom_frames p s false 0 s.repeatCount.toNat, frameOf_eq p h1]
  have hc : ∀ n : Nat, cyclesOf p (s.proto p) (List.replicate n (frameOf p s)).flatten =
      n * cyclesOf p (s.proto p) (frameOf p s) := by
    intro n
    induction n with
    | zero => simp
    | succ n ih => rw [List.replicate_succ, List.flatten_cons, cyclesOf_append, ih]; ring
  have hcyc : transmissionCycles p s = cyclesOf p (s.proto p) (train p s) := (hc _).symm
  by_cases hl : p.txStartLat = 0
  · have e : start p s = beginSegment p s.takePosition := if_pos hl
    rw [e, hcyc, htrain, hl]
    refine ⟨⟨rfl, h2, show 0 < s.wfLen.toNat from h1, h3, fun _ => ⟨dur_pos _ _ _, rfl⟩⟩, ?_, ?_⟩
    · simp only [remaining, pending, State.beginSegment_startLeft, State.takePosition_startLeft, h0, if_true, Nat.zero_add,
        cyclesOf_cons]
      rfl
    · simp only [startDrives, pending, State.beginSegment_startLeft, State.takePosition_startLeft, h0, if_true]
      rfl
  · have e : start p s = { s.takePosition with startLeft := p.txStartLat } := if_neg hl
    rw [e, hcyc, htrain]
    refine ⟨⟨rfl, h2, show 0 < s.wfLen.toNat from h1, h3, fun h => absurd h hl⟩, ?_, ?_⟩
    · simp only [remaining, pending, if_neg hl, Nat.add_zero]
      rfl
    · have hn : (p.txStartLat == 0) = false := beq_eq_false_iff_ne.mpr hl
      simp only [startDrives, pending, if_neg hl, hn]
      rfl

end Sys2Proof.Machine
end

