-- ==== Sys2Proof/Laws/Commands.lean ====
section
/-! SUPPORT. When the command bodies succeed, and what a success can do to the sequencer. -/

namespace Sys2Proof.Machine

/-! ## Starting -/

theorem start_busy (p : Params) (s : State) : (start p s).busy = true := by unfold start; split <;> rfl

theorem start_result (p : Params) (s : State) : (start p s).result = s.result := by unfold start; split <;> rfl

/-- Starting changes the sequencer's own fields and nothing else (R171). -/
theorem start_frame (p : Params) (s : State) : start p s = s.withSequencer (start p s) := by unfold start; split <;> rfl

/-! ## Success -/

theorem expandOp_of_fits {s : State} (h : s.cwLen.toNat ≤ 16) :
    expandOp s = .ok (s.setBinary (expandBits s.cwData s.cwLen.toNat)) :=
  if_neg (by show ¬s.cwLen.toNat > 16; omega)

theorem compileOp_of_fits (p : Params) {s : State} (h : s.binLen.toNat ≤ 32) :
    compileOp p s = .ok (s.setWaveforms (s.proto p)) :=
  if_neg (by show ¬s.binLen.toNat > 32; omega)

theorem transmitOp_of_fits (p : Params) {s : State} (h1 : 1 ≤ s.wfLen.toNat) (h2 : s.wfLen.toNat ≤ 33) :
    transmitOp p s = .ok (start p s) := by
  unfold transmitOp
  rw [if_neg (by show ¬s.wfLen.toNat > 33; omega), if_neg (fun e => by rw [e] at h1; simp at h1)]

/-- The state a SEND hands to TRANSMIT: a codeword, its own 24 bits, their waveforms (R180, R182). -/
def State.sent (p : Params) (s : State) (k : Scheme) (l : List Tri) : State :=
  State.setWaveforms { s.setCodeword k l with binLen := 24, binData := packSymbols l } (s.proto p)

theorem sendOp_of_encoded (p : Params) {b : Bool} {s : State} {k : Scheme} {l : List Tri}
    (h : encodeFn s.fam s.grp s.dev b = .ok (k, l)) : sendOp p b s = .ok (start p (s.sent p k l)) := by
  have e1 : encodeOp b s = .ok (s.setCodeword k l) := by simp [encodeOp, h]
  have e2 := expandOp_setCodeword s k (encodeFn_length h)
  have e3 := compileOp_of_fits p (s := { s.setCodeword k l with binLen := 24, binData := packSymbols l })
    (show 24 ≤ 32 by decide)
  have e4 := transmitOp_of_fits p (s := s.sent p k l) (show 1 ≤ 25 by decide) (show 25 ≤ 33 by decide)
  simp only [sendOp, e1, e2]
  exact (congrArg (fun r => match r with | .error c => Except.error c | .ok s3 => transmitOp p s3) e3).trans e4

/-! ## ARG as a signed number -/

theorem sint32_ofNat {n : Nat} (h : n < 2 ^ 31) : sint32 (BitVec.ofNat 32 n) = n := by
  unfold sint32
  have : (BitVec.ofNat 32 n).getLsbD 31 = false := by
    simp only [BitVec.getLsbD_ofNat]
    rw [Nat.testBit_lt_two_pow h]; simp
  rw [this]; simp; omega

/-- A positive signed number is the word of that number. -/
theorem sint32_pos {a : Word} (h : 1 ≤ sint32 a) : a = BitVec.ofNat 32 (sint32 a).toNat ∧ (sint32 a).toNat < 2 ^ 31 := by
  unfold sint32 at h ⊢
  have := a.isLt
  split at h
  · omega
  · rename_i hb
    rw [if_neg hb]
    have hlt : a.toNat < 2 ^ 31 := by
      have h2 : a.toNat.testBit 31 = false := by simpa [BitVec.testBit_toNat] using hb
      by_contra hge
      have : a.toNat.testBit 31 = true := by
        rw [Nat.testBit_eq_decide_div_mod_eq]; simp; omega
      simp [this] at h2
    simp
    exact hlt

/-! ## The sequencer -/

theorem Scheme.code_le (k : Scheme) : k.code.toNat ≤ 4 := by cases k <;> decide

/-- The sequencer of an idle block, left as it was. -/
structure LeavesIdle (s t : State) : Prop where
  busy : t.busy = false
  repLeft : t.repLeft = s.repLeft
  wfIdx : t.wfIdx = s.wfIdx
  phase : t.phase = s.phase
  holdLeft : t.holdLeft = s.holdLeft
  startLeft : t.startLeft = s.startLeft

/-- A command body that succeeds on an idle block leaves the sequencer alone, or is a TRANSMIT or SEND that starts it on a
sequence of 1..33 waveforms, having written at most the buffers before it (R170, R180). -/
theorem commandBody_sequencer {i : Instr} {s t : State} (hb : s.busy = false) (h : commandBody i s = .ok t) :
    LeavesIdle s t ∨
      ((i = .transmit ∨ ∃ b, i = .send b) ∧ ∃ u, t = start Config.build u ∧ 1 ≤ u.wfLen.toNat ∧ u.wfLen.toNat ≤ 33 ∧
        u = { s with
          cwLen := u.cwLen, cwData := u.cwData, scheme := u.scheme, binLen := u.binLen, binData := u.binData,
          wfLen := u.wfLen, wfData := u.wfData } ∧
        (u.scheme = s.scheme ∨ u.scheme.toNat ≤ 4)) := by
  cases i with
  | encode b => obtain ⟨k, l, -, rfl⟩ := encodeOp_eq_ok h; exact .inl ⟨hb, rfl, rfl, rfl, rfl, rfl⟩
  | expand => obtain ⟨-, rfl⟩ := expandOp_eq_ok h; exact .inl ⟨hb, rfl, rfl, rfl, rfl, rfl⟩
  | compile => obtain ⟨-, rfl⟩ := compileOp_eq_ok h; exact .inl ⟨hb, rfl, rfl, rfl, rfl, rfl⟩
  | transmit =>
    obtain ⟨-, rfl⟩ | ⟨h1, h2, rfl⟩ := transmitOp_eq_ok h
    · exact .inl ⟨hb, rfl, rfl, rfl, rfl, rfl⟩
    · exact .inr ⟨.inl rfl, s, rfl, h1, h2, rfl, .inl rfl⟩
  | send b =>
    obtain ⟨s1, s2, s3, h1, h2, h3, h4⟩ := sendOp_eq_ok h
    obtain ⟨k, l, -, rfl⟩ := encodeOp_eq_ok h1
    obtain ⟨-, rfl⟩ := expandOp_eq_ok h2
    obtain ⟨-, rfl⟩ := compileOp_eq_ok h3
    obtain ⟨-, rfl⟩ | ⟨h1, h2, rfl⟩ := transmitOp_eq_ok h4
    · exact .inl ⟨hb, rfl, rfl, rfl, rfl, rfl⟩
    · exact .inr ⟨.inr ⟨b, rfl⟩, _, rfl, h1, h2, rfl, .inr k.code_le⟩
  | setProtocol => obtain ⟨-, -, rfl⟩ := setProtocolOp_eq_ok h; exact .inl ⟨hb, rfl, rfl, rfl, rfl, rfl⟩
  | setRepeat => obtain ⟨-, rfl⟩ := setRepeatOp_eq_ok h; exact .inl ⟨hb, rfl, rfl, rfl, rfl, rfl⟩

end Sys2Proof.Machine
end

