-- ==== Sys2Proof/Laws/Decode.lean ====
section
/-! SUPPORT. Lemmas about command words: fields of an encoded command, and what the decoder says of a word by its fields. -/

namespace Sys2Proof

/-- A word is its three fields, bit for bit (R80). -/
theorem word_eq_fields (w : Word) : w = reservedField w ++ BitVec.ofBool (statusField w) ++ opField w := by
  refine BitVec.eq_of_getLsbD_eq fun k hk => ?_
  rw [BitVec.getLsbD_append, BitVec.getLsbD_append]
  simp only [reservedField, statusField, opField, BitVec.getLsbD_extractLsb', BitVec.getLsbD_ofBool]
  by_cases h8 : k < 8
  · simp [h8]
  · by_cases h9 : k = 8
    · simp [h9]
    · have : ¬ k - 8 < 1 := by omega
      simp [h8, this, show 9 + (k - 8 - 1) = k by omega, show k - 8 - 1 < 23 by omega]

/-- Two words with the same fields are the same word. -/
theorem word_ext {v w : Word} (hr : reservedField v = reservedField w) (hs : statusField v = statusField w)
    (ho : opField v = opField w) : v = w := by
  rw [word_eq_fields v, word_eq_fields w, hr, hs, ho]

@[simp] theorem opField_encode (i : Instr) : opField (encode i) = i.opcode := by
  cases i with
  | encode s => cases s <;> decide
  | send s => cases s <;> decide
  | _ => decide

@[simp] theorem statusField_encode (i : Instr) : statusField (encode i) = i.statusBit := by
  cases i with
  | encode s => cases s <;> decide
  | send s => cases s <;> decide
  | _ => decide

@[simp] theorem reservedField_encode (i : Instr) : reservedField (encode i) = 0 := by
  cases i with
  | encode s => cases s <;> decide
  | send s => cases s <;> decide
  | _ => decide

/-- The operand-less commands, by opcode. -/
theorem plainCommand_eq_some {op : Byte} {i : Instr} (h : plainCommand op = some i) :
    op = i.opcode ∧ i.statusBit = false ∧ op ≠ 0x01 ∧ op ≠ 0x05 := by
  unfold plainCommand at h
  repeat' split at h
  all_goals simp at h
  all_goals subst h; simp_all [Instr.opcode, Instr.statusBit]

/-- What the decoder accepts: no reserved bit, the opcode and status bit of the command (R82). -/
theorem decode_eq_ok {w : Word} {i : Instr} (h : decode w = .ok i) :
    reservedField w = 0 ∧ opField w = i.opcode ∧ statusField w = i.statusBit := by
  unfold decode at h
  split at h
  · cases h
  · rename_i hr
    split at h
    · cases h; exact ⟨by simpa using hr, ‹_›, rfl⟩
    · split at h
      · cases h; exact ⟨by simpa using hr, ‹_›, rfl⟩
      · split at h
        · cases h
        · rename_i j hj
          split at h
          · cases h
          · cases h
            obtain ⟨ho, hs, -, -⟩ := plainCommand_eq_some hj
            exact ⟨by simpa using hr, ho, by simp_all⟩

theorem decode_encode (i : Instr) : decode (encode i) = .ok i := by
  cases i with
  | encode s => cases s <;> decide
  | send s => cases s <;> decide
  | _ => decide

/-- An opcode is no defined one exactly when it is 0x00 or 0x08..0xFF (R84). -/
theorem plainCommand_eq_none {op : Byte} (h1 : op ≠ 0x01) (h5 : op ≠ 0x05) :
    plainCommand op = none ↔ op.toNat = 0 ∨ 8 ≤ op.toNat := by
  have e1 : op.toNat ≠ 1 := fun h => h1 (BitVec.eq_of_toNat_eq h)
  have e5 : op.toNat ≠ 5 := fun h => h5 (BitVec.eq_of_toNat_eq h)
  unfold plainCommand
  simp only [BitVec.toNat_eq]
  repeat' split
  all_goals simp_all
  all_goals omega

/-- Why a word is refused, by its fields (R84). -/
theorem decode_eq_error_iff (w : Word) :
    (∃ e, decode w = .error e) ↔ reservedField w ≠ 0 ∨ ((opField w).toNat = 0 ∨ 8 ≤ (opField w).toNat) ∨
      (statusField w = true ∧ opField w ≠ 0x01 ∧ opField w ≠ 0x05) := by
  unfold decode
  by_cases hr : reservedField w ≠ 0
  · rw [if_pos hr]; exact ⟨fun _ => .inl hr, fun _ => ⟨_, rfl⟩⟩
  · rw [if_neg hr]
    by_cases h1 : opField w = 0x01
    · rw [if_pos h1]; simp_all
    · rw [if_neg h1]
      by_cases h5 : opField w = 0x05
      · rw [if_pos h5]; simp_all
      · rw [if_neg h5]
        have hn := plainCommand_eq_none h1 h5
        cases hp : plainCommand (opField w) with
        | none => exact ⟨fun _ => .inr (.inl (hn.mp hp)), fun _ => ⟨_, rfl⟩⟩
        | some j =>
          have hs : ¬((opField w).toNat = 0 ∨ 8 ≤ (opField w).toNat) := fun h => by simp [hn.mpr h] at hp
          cases hb : statusField w
          · simp only [Bool.false_eq_true, if_false, reduceCtorEq, exists_false, false_iff, false_and, or_false]
            exact fun h => h.elim hr hs
          · exact ⟨fun _ => .inr (.inr ⟨rfl, h1, h5⟩), fun _ => ⟨_, rfl⟩⟩

/-- OP as a number, by its mask. -/
theorem opField_toNat (w : Word) : (w &&& 0xFF).toNat = (opField w).toNat := by
  simp [opField]
  rw [show 255 = 2 ^ 8 - 1 by decide, Nat.and_two_pow_sub_one_eq_mod]

/-- OP has a value exactly when the masked word has. -/
theorem opField_eq_iff (w : Word) (n : Byte) : opField w = n ↔ w &&& 0xFF = n.setWidth 32 := by
  rw [← BitVec.toNat_inj, ← BitVec.toNat_inj, opField_toNat]
  have := n.isLt
  simp
  rw [Nat.mod_eq_of_lt (by omega)]

/-- RSV is clear exactly when the masked word is. -/
theorem reservedField_eq_zero_iff (w : Word) : reservedField w = 0 ↔ w &&& 0xFFFFFE00 = 0 := by
  constructor
  · intro h
    refine BitVec.eq_of_getLsbD_eq fun k hk => ?_
    have := congrArg (fun v => v.getLsbD (k - 9)) h
    simp only [reservedField, BitVec.getLsbD_extractLsb'] at this
    simp only [BitVec.getLsbD_and]
    interval_cases k <;> simp_all
  · intro h
    refine BitVec.eq_of_getLsbD_eq fun k hk => ?_
    have := congrArg (fun v => v.getLsbD (9 + k)) h
    simp only [BitVec.getLsbD_and] at this
    simp only [reservedField, BitVec.getLsbD_extractLsb']
    interval_cases k <;> simp_all

/-- The fields of a well-formed command, read back from its word (R80). -/
theorem fields_encode (i : Instr) : Cmd32.ofWord (encode i) = i.fields := by
  cases i with
  | encode s => cases s <;> decide
  | send s => cases s <;> decide
  | _ => decide

end Sys2Proof
end

