-- ==== Sys2Proof/Laws/Port.lean ====
section
/-! SUPPORT. What one clock edge can do, said once (R70, R250, R262). -/

namespace Sys2Proof.Machine

theorem step_of_reset {s : State} (h : s.edgeInput.rst = true) : step s = .next (resetEdge s) := by
  simp [step, clockEdge, h]

theorem step_of_running {s : State} (h : s.edgeInput.rst = false) : step s = hostAccess s.atAccess s.edgeInput.access := by
  simp [step, clockEdge, h]

theorem exec_next (i : Instr) (s : State) : ∃ t, exec i s = .next t := by
  rw [exec_eq_runCommand]
  unfold runCommand
  split <;> exact ⟨_, rfl⟩

theorem issue_next (s : State) (w : Word) : ∃ t, issue s w = .next t := by
  unfold issue
  split
  · exact exec_next _ _
  · exact ⟨_, rfl⟩

/-- The outcomes of a host write: dropped, a command, a register write, or ignored (R69). -/
theorem memWrite_cases {s t : State} {a : Addr} {v : Word} (h : memWrite s a v = .next t) :
    (s.busy = true ∧ t = s.dropWrite) ∨
      (s.busy = false ∧ ((regAt a = some .cmd ∧ issue s v = .next t) ∨
        (∃ r, regAt a = some r ∧ r ≠ .cmd ∧ t = writeReg s v r) ∨ (regAt a = none ∧ t = s))) := by
  unfold memWrite at h
  cases hb : s.busy
  · simp only [hb, Bool.false_eq_true, if_false] at h
    split at h
    · exact .inr ⟨rfl, .inl ⟨‹_›, h⟩⟩
    · rename_i r hn hr
      cases h
      exact .inr ⟨rfl, .inr (.inl ⟨r, hr, hn, rfl⟩)⟩
    · cases h
      exact .inr ⟨rfl, .inr (.inr ⟨‹_›, rfl⟩)⟩
  · simp only [hb, if_true] at h
    cases h
    exact .inl ⟨rfl, rfl⟩

theorem memWrite_busy {s : State} (a : Addr) (v : Word) (h : s.busy = true) : memWrite s a v = .next s.dropWrite := by
  simp [memWrite, h]

theorem memWrite_cmd {s : State} {a : Addr} (v : Word) (h : s.busy = false) (ha : regAt a = some .cmd) :
    memWrite s a v = issue s v := by
  simp [memWrite, h, ha]

theorem memWrite_reg {s : State} {a : Addr} {r : Reg} (v : Word) (h : s.busy = false) (ha : regAt a = some r)
    (hr : r ≠ .cmd) : memWrite s a v = .next (writeReg s v r) := by
  unfold memWrite
  simp only [h, Bool.false_eq_true, if_false]
  split
  · simp_all
  · simp_all
  · simp_all

theorem memWrite_none {s : State} {a : Addr} (v : Word) (h : s.busy = false) (ha : regAt a = none) :
    memWrite s a v = .next s := by
  simp [memWrite, h, ha]

/-- A command issued is a decoded command run, or an illegal word's error (R83, R84). -/
theorem issue_cases {s t : State} {w : Word} (h : issue s w = .next t) :
    (∃ i, decode w = .ok i ∧ exec i s = .next t) ∨
      ((∃ e, decode w = .error e) ∧ t = (s.beginCommand (opField w)).raise .illegalCmd) := by
  unfold issue at h
  split at h
  · exact .inl ⟨_, ‹_›, h⟩
  · cases h; exact .inr ⟨⟨_, ‹_›⟩, rfl⟩

/-- The outcomes of a host access (R70 step 3). -/
theorem hostAccess_cases {s t : State} {x : Option HostAccess} (h : hostAccess s x = .next t) :
    (x = none ∧ t = s) ∨ (∃ a, x = some (.read a) ∧ t = s.answer (memRead Config.build s a)) ∨
      (∃ a v, x = some (.write a v) ∧ memWrite s a v = .next t) := by
  unfold hostAccess at h
  split at h
  · cases h; exact .inl ⟨rfl, rfl⟩
  · cases h; exact .inr (.inl ⟨_, rfl, rfl⟩)
  · exact .inr (.inr ⟨_, _, rfl, h⟩)

/-- An access that finds BUSY = 1 changes OVERRUN and the port at most (R262). -/
theorem hostAccess_busy {s t : State} {x : Option HostAccess} (hb : s.busy = true) (h : hostAccess s x = .next t) :
    t = { s with overrun := t.overrun, reply := t.reply } := by
  rcases hostAccess_cases h with ⟨-, rfl⟩ | ⟨a, -, rfl⟩ | ⟨a, v, -, hw⟩
  · rfl
  · rfl
  · rw [memWrite_busy _ _ hb] at hw; cases hw; rfl

/-- An access that finds BUSY = 0: nothing but an answer, a register written, or a command word issued (R69). -/
theorem hostAccess_idle {s t : State} {x : Option HostAccess} (hb : s.busy = false) (h : hostAccess s x = .next t) :
    (t = { s with reply := t.reply }) ∨
      (∃ a v r, x = some (.write a v) ∧ regAt a = some r ∧ r ≠ .cmd ∧ t = writeReg s v r) ∨
      (∃ a v, x = some (.write a v) ∧ regAt a = some .cmd ∧
        ((∃ i, decode v = .ok i ∧ exec i s = .next t) ∨
          ((∃ e, decode v = .error e) ∧ t = (s.beginCommand (opField v)).raise .illegalCmd))) := by
  rcases hostAccess_cases h with ⟨-, rfl⟩ | ⟨a, -, rfl⟩ | ⟨a, v, rfl, hw⟩
  · exact .inl rfl
  · exact .inl rfl
  · rcases memWrite_cases hw with ⟨hb', -⟩ | ⟨-, ⟨hc, hi⟩ | ⟨r, h1, h2, h3⟩ | ⟨-, rfl⟩⟩
    · rw [hb] at hb'; cases hb'
    · exact .inr (.inr ⟨a, v, rfl, hc, issue_cases hi⟩)
    · exact .inr (.inl ⟨a, v, r, rfl, h1, h2, h3⟩)
    · exact .inl rfl

theorem hostAccess_next (s : State) (x : Option HostAccess) : ∃ t, hostAccess s x = .next t := by
  unfold hostAccess
  split
  · exact ⟨_, rfl⟩
  · exact ⟨_, rfl⟩
  · unfold memWrite
    split
    · exact ⟨_, rfl⟩
    · split
      · exact issue_next _ _
      · exact ⟨_, rfl⟩
      · exact ⟨_, rfl⟩

@[simp] theorem edgeInput_cons (s : State) (e : EdgeInput) (rest : List EdgeInput) :
    State.edgeInput { s with inputs := e :: rest } = e := rfl

@[simp] theorem takeInput_cons (s : State) (e : EdgeInput) (rest : List EdgeInput) :
    State.takeInput { s with inputs := e :: rest } = { s with inputs := rest, reply := none } := rfl

end Sys2Proof.Machine
end

