-- ==== Sys2Proof/Laws/Runs.lean ====
section
/-! SUPPORT. Edges at which the host only watches: the block does its sequencer step and nothing else (spec 20_memory.md R67, R70). -/

namespace Sys2Proof.Machine

/-- No reset and no write. -/
def EdgeInput.watches (e : EdgeInput) : Prop := e.rst = false ∧ ∀ a v, e.access ≠ some (.write a v)

/-- The state an edge's access finds, field by field but for the port, is a sequencer step of the state before. -/
theorem atAccess_eq (s : State) : s.atAccess = (sequencerEdge Config.build s).withPort s.inputs.tail none :=
  sequencerEdge_withPort Config.build s s.inputs.tail none

/-- It differs from the state before the edge in the sequencer's own fields and the port. -/
theorem atAccess_frame (s : State) : s.atAccess = (s.withSequencer s.atAccess).withPort s.inputs.tail none := by
  rw [atAccess_eq, sequencerEdge_frame]; rfl

/-- An edge with no reset and no write is a sequencer step, but for the port. -/
theorem step_watched {s : State} (h : s.edgeInput.watches) :
    ∃ r, step s = .next ((sequencerEdge Config.build s).withPort s.inputs.tail r) := by
  rw [step_of_running h.1, atAccess_eq]
  cases ha : s.edgeInput.access with
  | none => exact ⟨none, rfl⟩
  | some x => cases x with
    | read a => exact ⟨some _, rfl⟩
    | write a v => exact absurd ha (h.2 a v)

theorem edgeInput_watches {s : State} (h : ∀ e ∈ s.inputs, e.watches) : s.edgeInput.watches := by
  unfold State.edgeInput
  cases hi : s.inputs with
  | nil => exact ⟨rfl, fun _ _ h => nomatch h⟩
  | cons e rest => exact h e (by simp [hi])

theorem runSequencer_withPort (p : Params) (k : Nat) (s : State) (i : List EdgeInput) (r : Option Word) :
    (runSequencer p k (s.withPort i r)).1 = (runSequencer p k s).1.withPort i r := by
  induction k generalizing s with
  | zero => rfl
  | succ k ih => simp only [runSequencer, sequencerEdge_withPort, ih]

theorem run_succ {s t : State} (h : step s = .next t) (k : Nat) :
    Host.Core.run Sys2Proof.core (k + 1) s = Host.Core.run Sys2Proof.core k t := by
  have h' : Sys2Proof.core.step s = .next t := h
  simp only [Host.Core.run, h']

/-- Any number of such edges is as many sequencer steps. -/
theorem run_watched (k : Nat) {s : State} (h : ∀ e ∈ s.inputs, e.watches) :
    ∃ i r, Host.Core.run Sys2Proof.core k s = .next ((runSequencer Config.build k s).1.withPort i r) := by
  induction k generalizing s with
  | zero => exact ⟨s.inputs, s.reply, rfl⟩
  | succ k ih =>
    obtain ⟨r, hr⟩ := step_watched (edgeInput_watches h)
    obtain ⟨i, q, hq⟩ := ih (s := (sequencerEdge Config.build s).withPort s.inputs.tail r)
      fun e he => h e (List.mem_of_mem_tail he)
    refine ⟨i, q, ?_⟩
    rw [run_succ hr, hq, runSequencer_withPort]
    rfl

end Sys2Proof.Machine
end

