-- ==== Sys2Proof/Laws/Invariant.lean ====
section
/-! SUPPORT. The invariant through the parts of an edge: the port, the sequencer's step, a start. -/

namespace Sys2Proof.Machine

/-- A transmission of the invariant is one the counting lemmas speak of. -/
theorem Inv.running {s : State} (h : Inv s) (hb : s.busy = true) : Running Config.build s := by
  have k := h.in_progress hb
  exact ⟨hb, k.length.2, k.index, k.frames.1, fun h0 => ⟨(k.driving h0).1, (k.driving h0).2.2⟩⟩

/-- OVERRUN and the port are outside the invariant. -/
theorem Inv.withPort {s : State} (h : Inv s) (o : Bool) (i : List EdgeInput) (r : Option Word) :
    Inv { s with overrun := o, inputs := i, reply := r } := by
  obtain ⟨a, b, c, d, e, f⟩ := h
  refine ⟨a, b, c, d, e, fun hb => ?_⟩
  obtain ⟨g1, g2, g3, g4, g5, g6⟩ := f hb
  exact ⟨g1, g2, g3, g4, g5, g6⟩

/-- A step that still has a start latency to wait for began with one more cycle of it. -/
theorem seqStep_startLeft_pos {p : Params} {s : State} (h : 0 < (seqStep p s).startLeft) :
    1 < s.startLeft ∧ seqStep p s = { s with startLeft := s.startLeft - 1 } := by
  unfold seqStep at h ⊢
  by_cases hs : 0 < s.startLeft
  · rw [if_pos hs] at h ⊢
    by_cases h1 : s.startLeft = 1
    · rw [if_pos h1] at h; cases h
    · rw [if_neg h1]; exact ⟨by omega, rfl⟩
  · exfalso
    rw [if_neg hs] at h
    split at h
    · exact hs h
    · split at h
      · rename_i t ht
        rw [advance_eq_some ht] at h
        exact hs h
      · exact hs h

/-- After a step inside a segment the cycles left are at most the segment's own. -/
theorem seqStep_holdLeft_le {p : Params} {s : State} (hr : Running p s) (hb : (seqStep p s).busy = true)
    (hd : s.startLeft = 0 → s.holdLeft ≤ dur p (s.proto p) (segmentCount p s)) (h0 : (seqStep p s).startLeft = 0) :
    (seqStep p s).holdLeft ≤ dur p ((seqStep p s).proto p) (segmentCount p (seqStep p s)) := by
  unfold seqStep at h0 ⊢
  by_cases hs : 0 < s.startLeft
  · rw [if_pos hs] at h0 ⊢
    by_cases h1 : s.startLeft = 1
    · rw [if_pos h1]; exact le_rfl
    · rw [if_neg h1] at h0
      exfalso
      have : s.startLeft - 1 = 0 := h0
      omega
  · rw [if_neg hs] at h0 ⊢
    have hh := (hr.driving (by omega)).1
    have hdown : holdDown p s.holdLeft = s.holdLeft - 1 := if_neg (by omega)
    split
    · rw [hdown]
      exact (Nat.sub_le _ _).trans (hd (by omega))
    · split
      · exact le_rfl
      · rename_i hz _ hn
        exfalso
        rw [seqStep, if_neg hs, if_neg hz, hn] at hb
        cases hb

/-- A sequencer step keeps the invariant. -/
theorem seqStep_inv {s : State} (h : Inv s) (hb : s.busy = true) : Inv (seqStep Config.build s) := by
  have k := h.in_progress hb
  have hr := h.running hb
  have hfr := seqStep_frame Config.build s
  obtain ⟨a, b, c, d, -, -⟩ := h
  refine ⟨by rw [hfr]; exact a, by rw [hfr]; exact b, by rw [hfr]; exact c, by rw [hfr]; exact d, ?_, ?_⟩
  · intro hn
    rcases seqStep_spec Config.build hr with ⟨hr, -⟩ | ⟨hf, -, -, h0, -⟩
    · rw [hr.busy] at hn; cases hn
    · rw [hf]; exact ⟨rfl, rfl, rfl, rfl, h0⟩
  · intro hn
    rcases seqStep_spec Config.build hr with ⟨hr', -, -, hle⟩ | ⟨hf, -⟩
    swap
    · rw [hf] at hn; cases hn
    refine ⟨by rw [hfr]; exact k.length, hr'.index, ⟨hr'.frames, hle.trans (by rw [hfr]; exact k.frames.2)⟩,
      by rw [hfr]; exact k.accepted, ?_, ?_⟩
    · intro h0
      obtain ⟨h1, e⟩ := seqStep_startLeft_pos h0
      obtain ⟨w1, w⟩ := k.waiting (by omega)
      rw [e]
      exact ⟨by show s.startLeft - 1 ≤ _; omega, w⟩
    · intro h0
      exact ⟨(hr'.driving h0).1, seqStep_holdLeft_le hr hn (fun h => (k.driving h).2.1) h0, (hr'.driving h0).2⟩

/-- The state an edge's access finds meets the invariant. -/
theorem atAccess_inv {s : State} (h : Inv s) : Inv s.atAccess := by
  rw [atAccess_eq]
  cases hb : s.busy
  · rw [sequencerEdge_idle _ hb]; exact h.withPort s.overrun _ _
  · rw [sequencerEdge_busy _ hb]; exact (seqStep_inv h hb).withPort (seqStep Config.build s).overrun _ _

/-- Starting an idle sequencer on a sequence that fits establishes the invariant. -/
theorem start_inv {s : State} (h1 : 1 ≤ s.wfLen.toNat) (h2 : s.wfLen.toNat ≤ 33)
    (hp : 1 ≤ s.protocol.toNat ∧ s.protocol.toNat ≤ 6) (hr : 1 ≤ s.repeatCount.toNat) (hs : s.scheme.toNat ≤ 4)
    (hok : s.result = ResultCode.ok.toByte ∧ (s.lastOp = 0x04 ∨ s.lastOp = 0x05)) (h0 : s.startLeft = 0)
    (hh : s.holdLeft = 0) : Inv (start Config.build s) := by
  have hf := start_frame Config.build s
  refine ⟨by rw [hf]; exact hp, by rw [hf]; exact hr, by rw [hf]; exact hs, ⟨.ok, by rw [hf]; exact hok.1⟩,
    fun h => (by rw [start_busy] at h; cases h), fun _ => ?_⟩
  by_cases hl : Config.build.txStartLat = 0
  · rw [start, if_pos hl]
    refine ⟨⟨h1, h2⟩, h1, ⟨hr, le_rfl⟩, hok, fun h => ?_, fun _ => ⟨dur_pos _ _ _, le_rfl, rfl⟩⟩
    have : 0 < s.startLeft := h
    omega
  · rw [start, if_neg hl]
    exact ⟨⟨h1, h2⟩, h1, ⟨hr, le_rfl⟩, hok, fun _ => ⟨le_rfl, rfl, rfl, rfl, hh⟩, fun h => absurd h hl⟩

end Sys2Proof.Machine
end

