-- ==== Sys2Proof/Laws/PerInstr.lean ====
section
/-! SUPPORT. What holds of every command as syntax, one lemma per command (spec 30_encoding.md R80 to R82). -/

namespace Sys2Proof.Laws.Legal

/-- The command's fields pass the three checks of R84, its word carries those fields, and the word matches a row of R82. -/
def Statement (i : Instr) : Prop :=
  i.wf = true ∧ Cmd32.ofWord (encode i) = i.fields ∧ i.fields.toWord = encode i ∧ legal (encode i) = true

theorem encode (s : Bool) : Statement (.encode s) := by cases s <;> (unfold Statement; decide)

theorem expand : Statement .expand := by unfold Statement; decide

theorem compile : Statement .compile := by unfold Statement; decide

theorem transmit : Statement .transmit := by unfold Statement; decide

theorem send (s : Bool) : Statement (.send s) := by cases s <;> (unfold Statement; decide)

theorem setProtocol : Statement .setProtocol := by unfold Statement; decide

theorem setRepeat : Statement .setRepeat := by unfold Statement; decide

end Sys2Proof.Laws.Legal
end

