-- ==== Sys2Proof/Laws/Registers.lean ====
section
/-! SUPPORT. The register map: which register an address reaches, and what a register write does to every register's reading
(R20, R61 to R63, R68, R69). -/

namespace Sys2Proof.Machine

/-- A slot number is the address divided by four (R61). -/
theorem slotOf_toNat (a : Addr) : (slotOf a).toNat = a.toNat / 4 := by
  have := a.isLt
  simp [slotOf, Nat.shiftRight_eq_div_pow]
  omega

/-- An address reaches nothing, or one of the registers of its slot's half of the map. -/
theorem regAt_cases (a : Addr) :
    (∃ h : 0x40 ≤ a.toNat / 4 ∧ a.toNat / 4 ≤ 0x60, regAt a = some (.wfData ⟨a.toNat / 4 - 0x40, by omega⟩)) ∨
      (¬(0x40 ≤ a.toNat / 4 ∧ a.toNat / 4 ≤ 0x60) ∧ regAt a = lowRegisters[a.toNat / 4]?) := by
  unfold regAt regInSlot
  simp only [slotOf_toNat]
  by_cases h : 0x40 ≤ a.toNat / 4 ∧ a.toNat / 4 ≤ 0x60
  · exact .inl ⟨h, by rw [dif_pos h]⟩
  · exact .inr ⟨h, by rw [dif_neg h]⟩

/-- Only the slot matters. -/
theorem regAt_congr {a b : Addr} (h : a.toNat / 4 = b.toNat / 4) : regAt a = regAt b := by
  unfold regAt
  rw [show slotOf a = slotOf b from BitVec.eq_of_toNat_eq (by rw [slotOf_toNat, slotOf_toNat, h])]

@[simp] theorem regAt_cmd_offset : regAt Reg.cmd.offset = some .cmd := by decide

/-- What a host write to a read/write register leaves in it (R63). -/
theorem readReg_writeReg_same (p : Params) (s : State) (v : Word) (r : Reg) (h : r.access = .readWrite) :
    readReg p (writeReg s v r) r = v &&& writableBits r := by
  have low8 : ∀ v : Word, (v.setWidth 8).setWidth 32 = v &&& 0x000000FF := by
    intro v
    refine BitVec.eq_of_getLsbD_eq fun k hk => ?_
    rw [BitVec.getLsbD_and]
    interval_cases k <;> simp
  have low16 : ∀ v : Word, (v.setWidth 16).setWidth 32 = v &&& 0x0000FFFF := by
    intro v
    refine BitVec.eq_of_getLsbD_eq fun k hk => ?_
    rw [BitVec.getLsbD_and]
    interval_cases k <;> simp
  have all : ∀ v : Word, v = v &&& 0xFFFFFFFF := by
    intro v
    rw [show (0xFFFFFFFF : Word) = BitVec.allOnes 32 from rfl, BitVec.and_allOnes]
  cases r <;> simp only [Reg.access, reduceCtorEq] at h <;> simp only [readReg, writeReg, writableBits]
  all_goals first
    | exact all v
    | exact low8 v
    | simp [low16]

/-- A host write to a register changes no other register's reading. -/
theorem readReg_writeReg_other (p : Params) (s : State) (v : Word) {q r : Reg} (h : q ≠ r) :
    readReg p (writeReg s v r) q = readReg p s q := by
  cases r <;> cases q <;>
    first
    | rfl
    | exact absurd rfl h
    | (rename_i i j
       have hij : j.val ≠ i.val := fun e => h (by rw [Fin.ext e])
       simp only [readReg, writeReg]
       congr 1
       simp [hij.symm])

/-- The fields no register write reaches. -/
theorem writeReg_keeps (s : State) (v : Word) (r : Reg) :
    (writeReg s v r).busy = s.busy ∧ (writeReg s v r).overrun = s.overrun ∧ (writeReg s v r).result = s.result ∧
      (writeReg s v r).lastOp = s.lastOp ∧ (writeReg s v r).protocol = s.protocol ∧
      (writeReg s v r).repeatCount = s.repeatCount ∧ (writeReg s v r).scheme = s.scheme ∧
      (writeReg s v r).repLeft = s.repLeft ∧ (writeReg s v r).wfIdx = s.wfIdx ∧ (writeReg s v r).phase = s.phase ∧
      (writeReg s v r).holdLeft = s.holdLeft ∧ (writeReg s v r).startLeft = s.startLeft ∧
      (writeReg s v r).txOut = s.txOut ∧ (writeReg s v r).inputs = s.inputs ∧ (writeReg s v r).reply = s.reply := by
  cases r <;> exact ⟨rfl, rfl, rfl, rfl, rfl, rfl, rfl, rfl, rfl, rfl, rfl, rfl, rfl, rfl, rfl⟩

/-- Writing the same value twice is writing it once. -/
theorem writeReg_idem (s : State) (v : Word) (r : Reg) : writeReg (writeReg s v r) v r = writeReg s v r := by
  cases r <;> simp [writeReg]

end Sys2Proof.Machine
end

