-- ==== Sys2Proof/Tests/Slice0.lean ====
section
/-! SUPPORT. Small tests. Expected results come from spec/ (95_test_vectors.md where a vector is named); the witnesses at the end
show, for each statement with hypotheses, states and operands that meet them, at the boundaries of each clause. -/

namespace Sys2Proof.Machine.Tests

/-! ## Well-formedness: each check refuses an ill-formed term -/

theorem test_opcode_zero_is_ill_formed : (Cmd32.mk 0x00 false 0).wf = false := by decide
theorem test_opcode_eight_is_ill_formed : (Cmd32.mk 0x08 false 0).wf = false := by decide
theorem test_opcode_seven_is_well_formed : (Cmd32.mk 0x07 false 0).wf = true := by decide
theorem test_reserved_bits_are_ill_formed : (Cmd32.mk 0x01 false 1).wf = false := by decide
theorem test_status_bit_on_expand_is_ill_formed : (Cmd32.mk 0x02 true 0).wf = false := by decide
theorem test_status_bit_on_send_is_well_formed : (Cmd32.mk 0x05 true 0).wf = true := by decide
theorem test_setproto_beyond_arg_is_ill_formed : (HostOp.setproto (2 ^ 31)).wf = false := by decide
theorem test_setrepeat_below_arg_is_ill_formed : (HostOp.setrepeat (-2 ^ 31 - 1)).wf = false := by decide
theorem test_setstr_of_nine_bytes_is_ill_formed : (HostOp.setstr .fam [1, 2, 3, 4, 5, 6, 7, 8, 9]).wf = false := by decide

/-! ## Decoding: words written out bit by bit from R80 to R82 -/

theorem test_decode_encode_off : decode 0b00000000000000000000000000000001 = .ok (.encode false) := by decide
theorem test_decode_encode_on : decode 0b00000000000000000000000100000001 = .ok (.encode true) := by decide
theorem test_decode_expand : decode 0b00000000000000000000000000000010 = .ok .expand := by decide
theorem test_decode_compile : decode 0b00000000000000000000000000000011 = .ok .compile := by decide
theorem test_decode_transmit : decode 0b00000000000000000000000000000100 = .ok .transmit := by decide
theorem test_decode_send_off : decode 0b00000000000000000000000000000101 = .ok (.send false) := by decide
theorem test_decode_send_on : decode 0b00000000000000000000000100000101 = .ok (.send true) := by decide
theorem test_decode_set_protocol : decode 0b00000000000000000000000000000110 = .ok .setProtocol := by decide
theorem test_decode_set_repeat : decode 0b00000000000000000000000000000111 = .ok .setRepeat := by decide

/-- VI1 to VI7. -/
theorem test_illegal_words :
    [0x00000000, 0x00000008, 0x000000FF, 0x00000102, 0x00000104, 0x00000201, 0x80000005].map decode? =
      List.replicate 7 none := by decide

/-- R82 in the opcode table's own numbering. -/
theorem test_table_word : decodeTableWord 32 0x105 = some (.send true) := by decide

/-! ## States to test on -/

/-- The reset state with three strings. -/
def withStrings (f g d : StringBuffer) : State := { State.reset with fam := f, grp := g, dev := d }

/-- The empty string. -/
def noText : StringBuffer := { len := 0, d0 := 0, d1 := 0 }

/-- A string of up to four bytes, the first in the low byte. -/
def text (n : Byte) (w : Word) : StringBuffer := { len := n, d0 := w, d1 := 0 }

/-- VA1: the strings "", "11011", "10000". -/
def stateA : State :=
  withStrings noText { len := 5, d0 := 0x31303131, d1 := 0x31 } { len := 5, d0 := 0x30303031, d1 := 0x30 }

/-- VB2: "", "1", "2". -/
def stateB : State := withStrings noText (text 1 0x31) (text 1 0x32)

/-- VC36: "a", "01", "004". -/
def stateC : State := withStrings (text 1 0x61) (text 2 0x3130) (text 3 0x343030)

/-- VD14: "", "D", "3". -/
def stateD : State := withStrings noText (text 1 0x44) (text 1 0x33)

/-- One waveform to send, (1,3), once: VT1. -/
def stateOne : State :=
  { State.reset with wfLen := 1, repeatCount := 1, wfData := (Vector.replicate 33 0).set 0 0x0301 }

/-- A transmission waiting two more edges for its first segment. -/
def stateWaiting : State := { stateOne with busy := true, lastOp := 0x04, repLeft := 1, startLeft := 2 }

/-- The last cycle of the last segment of the last frame. -/
def stateLast : State := { stateOne with busy := true, lastOp := 0x04, repLeft := 1, phase := true, holdLeft := 1 }

/-- A test build: 2 cycles a microsecond, a start latency of 3, and P5's test value of PROTO_TABLE[2], inverted. -/
def testBuild : Params where
  ticksPerUsPred := 1
  txStartLat := 3
  openProtocol _ :=
    { pulseUnit := 2, syncBit := { high := 1, low := 2 }, zeroBit := { high := 1, low := 3 },
      oneBit := { high := 3, low := 1 }, inverted := true }
  wfBeyond _ := 0
  holdBelowZero := 0
  repBelowZero := 0
  idxPastEnd := 0

/-- A property of a next state. -/
def nextHas (o : Host.Outcome State Fault Refusal) (q : State → Bool) : Bool :=
  match o with
  | .next t => q t
  | .fault _ => false
  | .refused _ => false

/-- A property of the state a command's body gives. -/
def bodyHas (r : Except ResultCode State) (q : State → Bool) : Bool :=
  match r with
  | .ok t => q t
  | .error _ => false

/-! ## One or two cases for each command -/

theorem test_encode_type_a_VA1 :
    nextHas (exec (.encode true) stateA) (fun t => t.cwData == 0x008AA020 && t.scheme == 1) = true := by decide
theorem test_encode_type_c_VC36 :
    nextHas (exec (.encode true) stateC) (fun t => t.cwData == 0x00A8A088 && t.scheme == 3) = true := by decide
theorem test_expand_skips_VX5 :
    nextHas (exec .expand { State.reset with cwLen := 4, cwData := 0x9C })
      (fun t => t.binLen == 6 && t.binData == 0x2C) = true := by decide
theorem test_expand_full_VX4 :
    nextHas (exec .expand { State.reset with cwLen := 16, cwData := 0xAAAAAAAA })
      (fun t => t.binLen == 32 && t.binData == 0xAAAAAAAA) = true := by decide
theorem test_compile_VK4 :
    nextHas (exec .compile { State.reset with binLen := 3, binData := 0xFFFFFFFA })
      (fun t => t.wfData.toList.take 5 == [0x0301, 0x0103, 0x0301, 0x1F01, 0] && t.wfLen == 4) = true := by decide
theorem test_compile_full_VK3 :
    nextHas (exec .compile { State.reset with binLen := 32, binData := 0xFFFFFFFF })
      (fun t => t.wfData[31] == 0x0103 && t.wfData[32] == 0x1F01) = true := by decide
/-- R171 under protocol 1, TICKS_PER_US = 2 and a latency of 3: nothing is driven yet. -/
theorem test_transmit_waits :
    bodyHas (transmitOp testBuild stateOne) (fun t => t.busy && !t.txOut && t.startLeft == 3) = true := by decide
/-- R172, R173 without latency, inverted: dur(1) = 1 · 2 · 2 = 4 cycles at level 0. -/
theorem test_transmit_inverted :
    bodyHas (transmitOp { testBuild with txStartLat := 0 } { stateOne with protocol := 2, txOut := true })
      (fun t => !t.txOut && t.holdLeft == 4) = true := by decide
theorem test_send_type_b_VB2 :
    bodyHas (sendOp testBuild true stateB) (fun t => t.binData == 0x00AAA2A8 && t.wfData[24] == 0x1F01) = true := by decide
/-- VE34 with SEND: E_D_DEVICE, and no transmission. -/
theorem test_send_error_VE34 :
    nextHas (exec (.send true) (withStrings noText (text 1 0x61) (text 1 0x34)))
      (fun t => statusWord t == 0x00055100 && t.cwLen == 0) = true := by decide
theorem test_set_protocol_VP3 :
    nextHas (exec .setProtocol { State.reset with arg := 6 }) (fun t => t.protocol == 6 && t.result == 0) = true := by decide
theorem test_set_protocol_VP4 :
    nextHas (exec .setProtocol { State.reset with arg := 0x106 })
      (fun t => statusWord t == 0x00066000 && t.protocol == 1) = true := by decide
theorem test_set_repeat_VR4 :
    nextHas (exec .setRepeat { State.reset with arg := 0x7FFFFFFF })
      (fun t => t.repeatCount == 0x7FFFFFFF && t.result == 0) = true := by decide
theorem test_set_repeat_VR5 :
    nextHas (exec .setRepeat { State.reset with arg := 0x80000000 })
      (fun t => statusWord t == 0x00076100 && t.repeatCount == 10) = true := by decide

/-! ## The port and the sequencer -/

/-- VE4, ENCODE as the first step after reset: E_UNSUPPORTED. -/
theorem test_first_command_after_reset :
    nextHas (step (State.reset.withFetchWord 32 0x101)) (fun t => statusWord t == 0x00011000) = true := by decide

/-- VM1: a misaligned write reaches CW_DATA. -/
theorem test_misaligned_write_VM1 :
    nextHas (memWrite State.reset 0x03E 0x12345678) (fun t => t.cwData == 0x12345678) = true := by decide
/-- VM3: only the low 16 bits of WF_DATA[3] are stored. -/
theorem test_waveform_write_VM3 :
    nextHas (memWrite State.reset 0x10C 0xFFFFFFFF) (fun t => memRead testBuild t 0x10C == 0x0000FFFF) = true := by decide
/-- VL1: a write while BUSY = 1 changes STATUS only in OVERRUN. -/
theorem test_busy_write_VL1 :
    nextHas (memWrite { stateWaiting with lastOp := 0x05 } 0x000 0x12345678) (fun t => statusWord t == 0x00050003) = true := by
  decide
/-- VM6, the text "11011". -/
theorem test_setstr_VM6 :
    (HostOp.setstr .grp [0x31, 0x31, 0x30, 0x31, 0x31]).accesses =
      [.write 0x020 5, .write 0x024 0x31303131, .write 0x028 0x31] := by decide
/-- R174: the last cycle of a high segment hands over to the low one, 3 · 350 · 2 = 2100 cycles at level 0. -/
theorem test_sequencer_low_segment :
    (seqStep testBuild { stateLast with phase := false, txOut := true }).holdLeft = 2100 := by decide
theorem test_sequencer_finishes : (seqStep testBuild stateLast).busy = false := by decide

/-! ## Witnesses: the hypotheses of the statements can be met -/

theorem witness_illegal_words :
    (∃ e, decode 0x000 = .error e) ∧ (∃ e, decode 0x008 = .error e) ∧ (∃ e, decode 0x0FF = .error e) ∧
      (∃ e, decode 0x201 = .error e) ∧ (∃ e, decode 0x80000005 = .error e) ∧ (∃ e, decode 0x102 = .error e) :=
  ⟨⟨_, rfl⟩, ⟨_, rfl⟩, ⟨_, rfl⟩, ⟨_, rfl⟩, ⟨_, rfl⟩, ⟨_, rfl⟩⟩

/-- The reset state with one access waiting at the port. -/
def presenting (s : State) (x : HostAccess) : State := { s with inputs := [{ rst := false, access := some x }] }

theorem witness_accepted_command :
    (presenting State.reset (.write 0x003 0x101)).presents (some (.write 0x003 0x101)) ∧ regAt 0x003 = some .cmd ∧
      decode 0x101 = .ok (.encode true) ∧ (presenting State.reset (.write 0x003 0x101)).atAccess.busy = false :=
  ⟨rfl, by decide, by decide, by decide⟩

/-- An illegal word to CMD, and a write to WF_DATA[32], at an edge of an idle block. -/
theorem witness_idle_writes :
    (presenting State.reset (.write 0x000 0x102)).presents (some (.write 0x000 0x102)) ∧ regAt 0x000 = some .cmd ∧
      (∃ e, decode 0x102 = .error e) ∧ (presenting State.reset (.write 0x000 0x102)).atAccess.busy = false ∧
      (presenting State.reset (.write 0x180 0x0103)).presents (some (.write 0x180 0x0103)) :=
  ⟨rfl, by decide, ⟨_, rfl⟩, by decide, rfl⟩

/-- The first and the last entries of the two register tables. -/
theorem witness_register_tables :
    (0x008, State.reset.arg) ∈ State.reset.registerWords ∧ (0x04C, State.reset.scheme.setWidth 32) ∈ State.reset.registerWords ∧
      (0x008, { State.reset with arg := 7 }) ∈ State.reset.writtenStates 7 ∧
      (0x048, { State.reset with wfLen := 7 }) ∈ State.reset.writtenStates 7 := by decide

/-- An edge with `rst` = 1 and an access. -/
def resetting (x : Option HostAccess) : State := { stateWaiting with inputs := [{ rst := true, access := x }] }

theorem witness_reset_edge :
    (resetting (some (.read 0x00C))).inputs = { rst := true, access := some (.read 0x00C) } :: [] ∧
      (resetting (some (.write 0x008 1))).inputs = { rst := true, access := some (.write 0x008 1) } :: [] ∧
      (resetting none).inputs = { rst := true, access := none } :: [] := by decide

theorem witness_busy_write :
    (presenting stateWaiting (.write 0x1FF 0)).presents (some (.write 0x1FF 0)) ∧
      (presenting stateWaiting (.write 0x1FF 0)).atAccess.busy = true ∧
      (presenting stateWaiting (.read 0x004)).presents (some (.read 0x004)) ∧
      (presenting stateWaiting (.read 0x004)).atAccess.busy = true := ⟨rfl, by decide, rfl, by decide⟩

theorem witness_read_write_registers :
    State.reset.busy = false ∧ regAt 0x008 = some .arg ∧ Reg.arg.access = .readWrite ∧
      regAt 0x183 = some (.wfData 32) ∧ (Reg.wfData 32).access = .readWrite := by decide

theorem witness_reserved_offsets :
    regAt 0x068 = none ∧ regAt 0x0FF = none ∧ regAt 0x184 = none ∧ regAt 0x1FF = none ∧ regAt 0x067 ≠ none ∧
      regAt 0x100 ≠ none ∧ State.reset.busy = false ∧ stateWaiting.busy = true := by decide

theorem witness_read_only_registers :
    regAt 0x004 = some .status ∧ Reg.status.access = .readOnly ∧ regAt 0x064 = some .pOne ∧ Reg.pOne.access = .readOnly ∧
      State.reset.busy = false ∧ regAt 0x000 = some .cmd := by decide

theorem witness_same_slot : (0x1FC : Addr).toNat / 4 = (0x1FF : Addr).toNat / 4 ∧ (0 : Addr).toNat / 4 = (3 : Addr).toNat / 4 := by
  decide

theorem witness_one_address : regAt 0x000 = some .cmd ∧ regAt 0x183 = some (.wfData 32) := by decide

theorem witness_not_command_address : regAt 0x004 ≠ some .cmd ∧ regAt 0x1FF ≠ some .cmd := by decide

theorem witness_bit_positions (q : Protocol) :
    (0 < 32 ∧ 31 < 32) ∧ ∀ p : Params, ∀ s : State, s.proto p = q →
      (((0x05C : Addr) = 0x05C ∧ q.syncBit = (s.proto p).syncBit) ∧ ((0x060 : Addr) = 0x060 ∧ q.zeroBit = (s.proto p).zeroBit) ∧
        (0x064 : Addr) = 0x064 ∧ q.oneBit = (s.proto p).oneBit) :=
  ⟨by decide, fun _ _ h => by rw [h]; exact ⟨⟨rfl, rfl⟩, ⟨rfl, rfl⟩, rfl, rfl⟩⟩

theorem witness_type_a : stateA.fam.len = 0 ∧ stateA.grp.len = 5 ∧ stateA.dev.len = 5 := by decide

theorem witness_type_b :
    (stateB.fam.len = 0 ∧ stateB.grp.len = 1 ∧ stateB.dev.len = 1) ∧ (1 ≤ 1 ∧ 1 ≤ 4 ∧ (stateB.grp.byte 0).toNat = 0x30 + 1) ∧
      1 ≤ 2 ∧ 2 ≤ 4 ∧ (stateB.dev.byte 0).toNat = 0x30 + 2 := by decide

theorem spells_stateC : stateC.grp.spells 1 ∧ stateC.dev.spells 4 := by
  refine ⟨⟨by decide, by decide, by decide, by decide, fun k hk => ?_, by decide⟩,
    ⟨by decide, by decide, by decide, by decide, fun k hk => ?_, by decide⟩⟩
  · obtain rfl : k = 0 := by have : k + 1 < 2 := hk; omega
    decide
  · obtain rfl | rfl : k = 0 ∨ k = 1 := by have : k + 1 < 3 := hk; omega
    all_goals decide

theorem witness_type_c :
    stateC.fam.len = 1 ∧ hexByte (stateC.fam.byte 0) 10 ∧ stateC.grp.spells 1 ∧ stateC.dev.spells 4 :=
  ⟨by decide, by unfold hexByte; decide, spells_stateC.1, spells_stateC.2⟩

theorem witness_type_d :
    (stateD.fam.len = 0 ∧ stateD.grp.len = 1 ∧ stateD.dev.len = 1) ∧ letterByte (stateD.grp.byte 0) 3 ∧
      1 ≤ 3 ∧ 3 ≤ 3 ∧ (stateD.dev.byte 0).toNat = 0x30 + 3 := by unfold letterByte; decide

theorem witness_too_long_strings :
    8 < (withStrings (text 9 0) noText noText).fam.len.toNat ∧ 8 < (withStrings noText (text 9 0) noText).grp.len.toNat ∧
      8 < (withStrings noText noText (text 255 0)).dev.len.toNat := by decide

/-- VE9, VE6, VE5. -/
theorem witness_dispatch_errors :
    ((withStrings noText (text 1 0x31) (text 1 0x78)).stringsFit ∧ (withStrings noText (text 1 0x31) (text 1 0x78)).fam.len = 0 ∧
      (text 1 0x31).len = 1 ∧ (text 1 0x78).len = 1 ∧ ¬digitByte ((text 1 0x78).byte 0)) ∧
    ((withStrings noText (text 1 0x31) noText).stringsFit ∧ ¬(1 < (text 1 0x31).len.toNat ∧ 1 < noText.len.toNat) ∧
      ¬((text 1 0x31).len = 1 ∧ noText.len = 1)) ∧
    (withStrings noText (text 2 0x3231) (text 1 0x31)).stringsFit ∧ ¬(1 < (text 2 0x3231).len.toNat ∧ 1 < (text 1 0x31).len.toNat) ∧
      ¬((text 2 0x3231).len = 1 ∧ (text 1 0x31).len = 1) := by unfold State.stringsFit digitByte; decide

/-- VE11, VE12. -/
theorem witness_type_a_errors :
    ((withStrings noText (text 4 0) (text 5 0)).stringsFit ∧ 1 < (text 4 0).len.toNat ∧ 1 < (text 5 0).len.toNat ∧
      (text 4 0).len ≠ 5) ∧
    (withStrings noText (text 5 0) (text 2 0)).stringsFit ∧ (text 5 0).len = 5 ∧ 1 < (text 2 0).len.toNat ∧
      (text 2 0).len ≠ 5 := by unfold State.stringsFit; decide

/-- VE14, VE15, VE16. -/
theorem witness_type_b_errors :
    (digitByte ((text 1 0x30).byte 0) ∧ digitByte ((text 1 0x31).byte 0) ∧ ((text 1 0x30).byte 0).toNat < 0x31) ∧
    (digitByte ((text 1 0x35).byte 0) ∧ 0x34 < ((text 1 0x35).byte 0).toNat) ∧
    (digitByte ((text 1 0x34).byte 0) ∧ 0x31 ≤ ((text 1 0x34).byte 0).toNat ∧ ((text 1 0x34).byte 0).toNat ≤ 0x34) ∧
    (withStrings noText (text 1 0x31) (text 1 0x35)).fam.len = 0 ∧ (text 1 0x31).len = 1 := by unfold digitByte; decide

theorem no_hex_g (v : Nat) : ¬hexByte ((text 1 0x67).byte 0) v := by
  have e : ((text 1 0x67).byte 0).toNat = 0x67 := by decide
  unfold hexByte
  omega

theorem no_five (n : Nat) : ¬(text 1 0x35).spells n := by
  have e : ((text 1 0x35).byte ((text 1 0x35).len.toNat - 1)).toNat = 0x35 := by decide
  rintro ⟨-, -, -, h4, -, h6⟩
  rw [e] at h6
  omega

/-- VE18, VE21, VE27. -/
theorem witness_type_c_errors :
    ((withStrings (text 1 0x67) noText noText).stringsFit ∧ (text 1 0x67).len ≠ 0 ∧
      ¬((text 1 0x67).len = 1 ∧ ∃ v, hexByte ((text 1 0x67).byte 0) v)) ∧
    ((withStrings (text 1 0x61) (text 1 0x35) noText).stringsFit ∧ ((text 1 0x61).len = 1 ∧ ∃ v, hexByte ((text 1 0x61).byte 0) v) ∧
      ¬∃ g, (text 1 0x35).spells g) ∧
    (withStrings (text 1 0x61) stateC.grp (text 1 0x35)).stringsFit ∧ (∃ g, stateC.grp.spells g) ∧
      ¬∃ d, (text 1 0x35).spells d := by
  refine ⟨⟨by unfold State.stringsFit; decide, by decide, fun h => h.2.elim no_hex_g⟩,
    ⟨by unfold State.stringsFit; decide, ⟨by decide, 10, by unfold hexByte; decide⟩, fun h => h.elim no_five⟩,
    by unfold State.stringsFit; decide, ⟨1, spells_stateC.1⟩, fun h => h.elim no_five⟩

theorem no_letter_e (k : Nat) : ¬letterByte ((text 1 0x65).byte 0) k := by
  have e : ((text 1 0x65).byte 0).toNat = 0x65 := by decide
  unfold letterByte
  omega

/-- VE30, VE34, VE33. -/
theorem witness_type_d_errors :
    (¬digitByte ((text 1 0x65).byte 0) ∧ digitByte ((text 1 0x31).byte 0) ∧ ¬∃ k, letterByte ((text 1 0x65).byte 0) k) ∧
    (¬digitByte ((text 1 0x61).byte 0) ∧ (∃ k, letterByte ((text 1 0x61).byte 0) k) ∧
      (digitByte ((text 1 0x34).byte 0) ∧ 0x33 < ((text 1 0x34).byte 0).toNat) ∧
      digitByte ((text 1 0x30).byte 0) ∧ ((text 1 0x30).byte 0).toNat < 0x31) ∧
    (withStrings noText (text 1 0x65) (text 1 0x31)).fam.len = 0 :=
  ⟨⟨by unfold digitByte; decide, by unfold digitByte; decide, fun h => h.elim no_letter_e⟩,
    ⟨by unfold digitByte; decide, ⟨0, by unfold letterByte; decide⟩, by unfold digitByte; decide, by unfold digitByte; decide⟩,
    by decide⟩

/-- The encoder fails, then succeeds. -/
theorem witness_encoder_results :
    (∃ t, exec (.encode true) State.reset = .next t ∧ t.result ≠ 0x00) ∧
      ∃ t, exec (.encode true) stateA = .next t ∧ t.result = 0x00 := ⟨⟨_, rfl, by decide⟩, ⟨_, rfl, by decide⟩⟩

/-- GRP_D0 = 0x34333231 with GRP_LEN = 1 is the string "1". -/
theorem witness_same_strings :
    ∃ t v, (text 1 0x34333231).len = (text 1 0x31).len ∧
      (∀ k, k < (text 1 0x34333231).len.toNat → (text 1 0x34333231).byte k = (text 1 0x31).byte k) ∧
      exec (.encode true) (withStrings noText (text 1 0x34333231) (text 1 0x32)) = .next t ∧
      exec (.encode true) stateB = .next v ∧ t.result = 0x00 := by
  refine ⟨_, _, by decide, fun k hk => ?_, rfl, rfl, by decide⟩
  obtain rfl : k = 0 := by have : k < 1 := hk; omega
  decide

theorem witness_expand :
    ({ State.reset with cwLen := 16, cwData := 0x9C } : State).cwLen.toNat ≤ 16 ∧ symbolAt 0x9C 3 ≠ 0b01 ∧
      symbolAt 0x9C 2 = 0b01 ∧ 3 < 16 := by decide

theorem witness_valid_codeword :
    ({ State.reset with cwLen := 16, cwData := 0xAAAAAAAA } : State).cwLen.toNat ≤ 16 ∧
      ∀ i, i < 16 → symbolAt 0xAAAAAAAA i ≠ 0b01 := by decide

theorem witness_compile :
    ({ State.reset with binLen := 32, binData := 0x1 } : State).binLen.toNat ≤ 32 ∧ (0x1 : Word).getLsbD 0 = true ∧
      (0x1 : Word).getLsbD 31 = false ∧ State.reset.binLen.toNat ≤ 32 := by decide

theorem witness_too_long_buffers :
    16 < ({ State.reset with cwLen := 17 } : State).cwLen.toNat ∧ 32 < ({ State.reset with binLen := 33 } : State).binLen.toNat ∧
      33 < ({ State.reset with wfLen := 34 } : State).wfLen.toNat := by decide

theorem witness_transmit :
    (1 ≤ stateOne.wfLen.toNat ∧ stateOne.wfLen.toNat ≤ 33) ∧ ({ stateOne with wfLen := 33 } : State).wfLen.toNat ≤ 33 ∧
      (Config.build.txStartLat = 0 ∨ 0 < Config.build.txStartLat) := ⟨by decide, by decide, Nat.eq_zero_or_pos _⟩

theorem witness_empty_transmit : State.reset.wfLen = 0 := by decide

theorem witness_inside_segment : stateLast.busy = true ∧ stateLast.startLeft = 0 ∧ 0 < stateLast.holdLeft := by decide

theorem witness_waiting : stateWaiting.busy = true ∧ 1 < stateWaiting.startLeft := by decide

theorem witness_segment_ends :
    (stateLast.startLeft = 0 ∧ stateLast.holdLeft = 1 ∧ ({ stateLast with phase := false } : State).phase = false) ∧
    (stateLast.phase = true ∧ ({ stateLast with wfLen := 2 } : State).wfIdx.toNat + 1 < 2 ∧
      ({ stateLast with wfLen := 33, wfIdx := 31 } : State).wfIdx.toNat + 1 < 33) ∧
    (stateLast.wfLen.toNat ≤ stateLast.wfIdx.toNat + 1 ∧ 1 < ({ stateLast with repLeft := 2 } : State).repLeft.toNat) ∧
    stateLast.repLeft.toNat = 1 := by decide

theorem witness_watched_transmission :
    ∃ t, (1 ≤ stateOne.wfLen.toNat ∧ stateOne.wfLen.toNat ≤ 33 ∧ 1 ≤ stateOne.repeatCount.toNat ∧ stateOne.startLeft = 0) ∧
      (∀ e ∈ ({ stateOne with inputs := [EdgeInput.idle, { rst := false, access := some (.read 0x004) }] } : State).inputs,
        e.quiet) ∧
      exec .transmit { stateOne with inputs := [EdgeInput.idle, { rst := false, access := some (.read 0x004) }] } = .next t := by
  obtain ⟨t, ht⟩ := exec_next .transmit
    { stateOne with inputs := [EdgeInput.idle, { rst := false, access := some (.read 0x004) }] }
  refine ⟨t, by decide, fun e he => ?_, ht⟩
  obtain rfl | rfl : e = EdgeInput.idle ∨ e = { rst := false, access := some (.read 0x004) } := by simpa using he
  · exact ⟨rfl, .inl rfl⟩
  · exact ⟨rfl, .inr ⟨_, rfl⟩⟩

theorem witness_pulse_train :
    (stateOne.busy = false ∧ stateOne.startLeft = 0 ∧ 1 ≤ stateOne.wfLen.toNat ∧ stateOne.wfLen.toNat ≤ 33 ∧
      1 ≤ stateOne.repeatCount.toNat) ∧ ({ stateOne with wfLen := 33 } : State).wfLen.toNat ≤ 33 := by decide

theorem witness_train_index (p : Params) : 0 < (train p stateOne).length ∧ 1 < (train p stateOne).length :=
  ⟨Nat.zero_lt_succ _, Nat.one_lt_succ_succ _⟩

/-- A transmission that has just begun, whatever the build. -/
def stateStarted : State := start Config.build { stateOne with lastOp := 0x04 }

theorem witness_busy_invariant : Inv stateStarted ∧ stateStarted.busy = true ∧ ∀ e ∈ stateStarted.inputs, e.quiet :=
  ⟨start_inv (by decide) (by decide) (by decide) (by decide) (by decide) (by decide) rfl rfl, start_busy _ _, fun e he => by
    have hi : stateStarted.inputs = [] := by rw [stateStarted, start_frame]; rfl
    rw [hi] at he
    cases he⟩

theorem witness_undisturbed :
    (sequencerEdge Config.build { stateWaiting with inputs := [], reply := none }).busy = true := by decide

theorem witness_busy_falls :
    ∃ t, Inv stateLast ∧ stateLast.edgeInput.rst = false ∧ step stateLast = .next t ∧ stateLast.busy = true ∧ t.busy = false :=
  ⟨_, ⟨by decide, by decide, by decide, ⟨.ok, by decide⟩, fun h => (by cases h),
      fun _ => ⟨by decide, by decide, by decide, by decide, fun h => (by cases h), fun _ => ⟨by decide, dur_pos _ _ _, rfl⟩⟩⟩,
    rfl, rfl, rfl, by decide⟩

theorem witness_busy_rises :
    ∃ t, (presenting stateOne (.write 0x000 0x004)).edgeInput.rst = false ∧
      (presenting stateOne (.write 0x000 0x004)).atAccess.busy = false ∧
      step (presenting stateOne (.write 0x000 0x004)) = .next t ∧ t.busy = true :=
  ⟨_, rfl, by decide, rfl, start_busy _ _⟩

/-- All four shapes of R102. -/
theorem witness_encodable : stateA.encodable ∧ stateB.encodable ∧ stateC.encodable ∧ stateD.encodable :=
  ⟨.inl (by decide), .inr (.inl (by decide)),
    .inr (.inr (.inl ⟨by decide, ⟨10, by unfold hexByte; decide⟩, ⟨1, spells_stateC.1⟩, ⟨4, spells_stateC.2⟩⟩)),
    .inr (.inr (.inr ⟨by decide, by decide, by decide, ⟨3, by unfold letterByte; decide⟩, by decide⟩))⟩

theorem witness_four_commands :
    ∃ s1 s2 s3 s4, exec (.encode true) stateA = .next s1 ∧ s1.result = 0x00 ∧ exec .expand s1 = .next s2 ∧
      exec .compile s2 = .next s3 ∧ exec .transmit s3 = .next s4 := by
  refine ⟨_, _, _, _, rfl, by decide, rfl, rfl, (exec_next _ _).choose_spec⟩

theorem witness_protocol1_send :
    ∃ t, stateA.protocol = 1 ∧ exec (.send true) stateA = .next t ∧ t.result = 0x00 :=
  ⟨_, by decide, rfl, start_result _ _⟩

theorem witness_set_protocol :
    ({ State.reset with arg := 1 } : State).arg = BitVec.ofNat 32 1 ∧ ({ State.reset with arg := 6 } : State).arg = BitVec.ofNat 32 6 ∧
      (∀ n, n < 7 → 1 ≤ n → ({ State.reset with arg := 0 } : State).arg ≠ BitVec.ofNat 32 n) ∧
      ∀ n, n < 7 → 1 ≤ n → ({ State.reset with arg := 7 } : State).arg ≠ BitVec.ofNat 32 n := by decide

theorem witness_set_repeat :
    ({ State.reset with arg := 1 } : State).arg = BitVec.ofNat 32 1 ∧
      ({ State.reset with arg := 0x7FFFFFFF } : State).arg = BitVec.ofNat 32 (2 ^ 31 - 1) ∧
      ∀ n : Nat, 1 ≤ n → n < 2 ^ 31 → ({ State.reset with arg := 0x80000000 } : State).arg ≠ BitVec.ofNat 32 n := by
  refine ⟨by decide, by decide, fun n _ h e => ?_⟩
  have := congrArg BitVec.toNat e
  simp at this
  omega

theorem witness_accepted_and_failed :
    (∃ t, exec .setRepeat State.reset = .next t ∧ t.result ≠ 0x00) ∧ ∃ t, exec .expand State.reset = .next t ∧ t.result = 0x00 :=
  ⟨⟨_, rfl, by decide⟩, ⟨_, rfl, by decide⟩⟩

theorem witness_configuration_changes :
    (∃ t, step (presenting { State.reset with arg := 6 } (.write 0x000 0x006)) = .next t ∧ t.protocol ≠ 1) ∧
    (∃ t, step (presenting { State.reset with arg := 0x7FFFFFFF } (.write 0x000 0x007)) = .next t ∧ t.repeatCount ≠ 10) ∧
    ∃ t, step (presenting stateA (.write 0x000 0x001)) = .next t ∧ t.scheme ≠ 0 :=
  ⟨⟨_, rfl, by decide⟩, ⟨_, rfl, by decide⟩, ⟨_, rfl, by decide⟩⟩

theorem witness_reset_establishes :
    ∃ t, (resetting none).edgeInput.rst = true ∧ step (resetting none) = .next t := ⟨_, rfl, rfl⟩

theorem witness_invariant_step : ∃ t, Inv stateStarted ∧ step stateStarted = .next t := by
  cases h : step stateStarted with
  | next t => exact ⟨t, witness_busy_invariant.1, rfl⟩
  | fault r => cases r
  | refused r =>
    obtain ⟨r, hr⟩ := step_watched (s := stateStarted) (edgeInput_watches fun e he => by
      have hi : stateStarted.inputs = [] := by rw [stateStarted, start_frame]; rfl
      rw [hi] at he
      cases he)
    rw [hr] at h
    cases h

theorem witness_setstr :
    State.reset.busy = false ∧ ([0x31, 0x31, 0x30, 0x31, 0x31, 0x30, 0x30, 0x30] : List Byte).length ≤ 8 ∧
      ([] : List Byte).length ≤ 8 := by decide

end Sys2Proof.Machine.Tests
end

/-! SUPPORT. What one host access can do to the configuration and the sequencer, and what each command can do to the
configuration: the inversion lemmas the whole-machine rules follow from (R24, R27 to R29, R69, R83). -/

namespace Sys2Proof.Machine

/-! ## The configuration -/

/-- What a command may do to PROTOCOL, REPEAT and SCHEME: nothing, or what the command named for the register writes there
(R27, R28, R29). -/
structure ConfigurationStep (i : Instr) (s t : State) : Prop where
  protocol : t.protocol = s.protocol ∨
    (i = .setProtocol ∧ 1 ≤ sint32 s.arg ∧ sint32 s.arg ≤ 6 ∧ (t.protocol.toNat : Int) = sint32 s.arg)
  repeatCount : t.repeatCount = s.repeatCount ∨
    (i = .setRepeat ∧ 1 ≤ sint32 s.arg ∧ (t.repeatCount.toNat : Int) = sint32 s.arg)
  scheme : t.scheme = s.scheme ∨ ((∃ b, i = .encode b ∨ i = .send b) ∧ t.result = s.result ∧ t.scheme.toNat ≤ 4)

theorem start_scheme (p : Params) (s : State) : (start p s).scheme = s.scheme := by rw [start_frame]; rfl

theorem start_wfLen (p : Params) (s : State) : (start p s).wfLen = s.wfLen := by rw [start_frame]; rfl

/-- PROTOCOL's three bits hold every number SET_PROTOCOL accepts (R201). -/
theorem toNat_setProtocol (s : State) {n : Int} (h1 : 1 ≤ n) (h6 : n ≤ 6) :
    ((s.setProtocol n).protocol.toNat : Int) = n := by
  have h : ((BitVec.ofInt 3 n).toNat : Int) = n % 8 := by rw [BitVec.toNat_ofInt]; simp; omega
  rw [State.setProtocol, h]; omega

/-- REPEAT's 31 bits hold every positive number ARG can hold (R205). -/
theorem toNat_setRepeat (s : State) {n : Int} (h1 : 1 ≤ n) (h : n < 2 ^ 31) :
    ((s.setRepeat n).repeatCount.toNat : Int) = n := by
  have e : ((BitVec.ofInt 31 n).toNat : Int) = n % 2 ^ 31 := by rw [BitVec.toNat_ofInt]; simp; omega
  rw [State.setRepeat, e]; omega

theorem transmitOp_configuration {p : Params} {s t : State} (h : transmitOp p s = .ok t) :
    t.protocol = s.protocol ∧ t.repeatCount = s.repeatCount ∧ t.scheme = s.scheme := by
  obtain ⟨-, rfl⟩ | ⟨-, -, rfl⟩ := transmitOp_eq_ok h
  · exact ⟨rfl, rfl, rfl⟩
  · rw [start_frame]; exact ⟨rfl, rfl, rfl⟩

/-- Each command's body writes the configuration only as R27 to R29 let it. -/
theorem commandBody_configuration {i : Instr} {s t : State} (h : commandBody i s = .ok t) : ConfigurationStep i s t := by
  have hk := (commandBody_keepsOperands h).result
  cases i with
  | encode b =>
    obtain ⟨k, l, -, rfl⟩ := encodeOp_eq_ok h
    exact ⟨.inl rfl, .inl rfl, .inr ⟨⟨b, .inl rfl⟩, hk, k.code_le⟩⟩
  | expand => obtain ⟨-, rfl⟩ := expandOp_eq_ok h; exact ⟨.inl rfl, .inl rfl, .inl rfl⟩
  | compile => obtain ⟨-, rfl⟩ := compileOp_eq_ok h; exact ⟨.inl rfl, .inl rfl, .inl rfl⟩
  | transmit =>
    obtain ⟨hp, hr, hs⟩ := transmitOp_configuration h
    exact ⟨.inl hp, .inl hr, .inl hs⟩
  | send b =>
    obtain ⟨s1, s2, s3, h1, h2, h3, h4⟩ := sendOp_eq_ok h
    obtain ⟨hp, hr, hs⟩ := transmitOp_configuration h4
    obtain ⟨k, l, -, rfl⟩ := encodeOp_eq_ok h1
    obtain ⟨-, rfl⟩ := expandOp_eq_ok h2
    obtain ⟨-, rfl⟩ := compileOp_eq_ok h3
    exact ⟨.inl hp, .inl hr, .inr ⟨⟨b, .inr rfl⟩, hk, hs ▸ k.code_le⟩⟩
  | setProtocol =>
    obtain ⟨h1, h6, rfl⟩ := setProtocolOp_eq_ok h
    exact ⟨.inr ⟨rfl, h1, h6, toNat_setProtocol s h1 h6⟩, .inl rfl, .inl rfl⟩
  | setRepeat =>
    obtain ⟨h1, rfl⟩ := setRepeatOp_eq_ok h
    have hlt := (sint32_pos h1).2
    exact ⟨.inl rfl, .inr ⟨rfl, h1, toNat_setRepeat s h1 (by omega)⟩, .inl rfl⟩

/-! ## A host access -/

/-- What an access that runs no command leaves alone: BUSY, the configuration and the sequencer's position and counters; RESULT
changes only to E_ILLEGAL_CMD. -/
structure KeepsControl (s t : State) : Prop where
  busy : t.busy = s.busy
  protocol : t.protocol = s.protocol
  repeatCount : t.repeatCount = s.repeatCount
  scheme : t.scheme = s.scheme
  repLeft : t.repLeft = s.repLeft
  wfIdx : t.wfIdx = s.wfIdx
  phase : t.phase = s.phase
  holdLeft : t.holdLeft = s.holdLeft
  startLeft : t.startLeft = s.startLeft
  result : t.result = s.result ∨ t.result = ResultCode.illegalCmd.toByte

theorem writeReg_keepsControl (s : State) (v : Word) (r : Reg) : KeepsControl s (writeReg s v r) := by
  obtain ⟨busy, -, result, -, protocol, repeatCount, scheme, repLeft, wfIdx, phase, holdLeft, startLeft, -⟩ :=
    writeReg_keeps s v r
  exact ⟨busy, protocol, repeatCount, scheme, repLeft, wfIdx, phase, holdLeft, startLeft, .inl result⟩

/-- An access keeps the control state, or is a legal word written to CMD while BUSY = 0 and runs its command (R69, R83). -/
theorem hostAccess_keepsControl_or_runs {s t : State} {x : Option HostAccess} (h : hostAccess s x = .next t) :
    KeepsControl s t ∨
      ∃ a w i, x = some (.write a w) ∧ regAt a = some .cmd ∧ s.busy = false ∧ decode w = .ok i ∧ exec i s = .next t := by
  cases hb : s.busy with
  | true =>
    rw [hostAccess_busy hb h]
    exact .inl ⟨rfl, rfl, rfl, rfl, rfl, rfl, rfl, rfl, rfl, .inl rfl⟩
  | false =>
    rcases hostAccess_idle hb h with e | ⟨a, v, r, -, -, -, rfl⟩ | ⟨a, v, hx, ha, ⟨i, hd, hi⟩ | ⟨-, rfl⟩⟩
    · rw [e]
      exact .inl ⟨rfl, rfl, rfl, rfl, rfl, rfl, rfl, rfl, rfl, .inl rfl⟩
    · exact .inl (writeReg_keepsControl s v r)
    · exact .inr ⟨a, v, i, hx, ha, rfl, hd, hi⟩
    · exact .inl ⟨rfl, rfl, rfl, rfl, rfl, rfl, rfl, rfl, rfl, .inr rfl⟩

/-- The state an access finds has the edge's own configuration and ARG: the sequencer writes neither. -/
theorem atAccess_configuration (s : State) :
    s.atAccess.protocol = s.protocol ∧ s.atAccess.repeatCount = s.repeatCount ∧ s.atAccess.scheme = s.scheme ∧
      s.atAccess.arg = s.arg := by
  rw [atAccess_frame]; exact ⟨rfl, rfl, rfl, rfl⟩

/-! ## The invariant of an idle block -/

/-- An idle block whose sequencer is left at rest meets the invariant as long as its configuration and RESULT do. -/
theorem Inv.of_leavesIdle {s t : State} (h : Inv s) (hb : s.busy = false) (hl : LeavesIdle s t)
    (hp : 1 ≤ t.protocol.toNat ∧ t.protocol.toNat ≤ 6) (hr : 1 ≤ t.repeatCount.toNat) (hs : t.scheme.toNat ≤ 4)
    (hc : ∃ c : ResultCode, t.result = c.toByte) : Inv t := by
  obtain ⟨h1, h2, h3, h4, h5⟩ := h.at_rest hb
  refine ⟨hp, hr, hs, hc, fun _ => ?_, fun hn => ?_⟩
  · exact ⟨hl.repLeft.trans h1, hl.wfIdx.trans h2, hl.phase.trans h3, hl.holdLeft.trans h4, hl.startLeft.trans h5⟩
  · rw [hl.busy] at hn; cases hn

/-- `issue`'s own writes keep the invariant of an idle block (R83). -/
theorem Inv.beginCommand {s : State} (h : Inv s) (hb : s.busy = false) (op : Byte) : Inv (s.beginCommand op) :=
  h.of_leavesIdle hb ⟨hb, rfl, rfl, rfl, rfl, rfl⟩ h.protocol_legal h.repeat_positive h.scheme_legal ⟨.ok, rfl⟩

/-- An error keeps the invariant of an idle block (R223). -/
theorem Inv.raise {s : State} (h : Inv s) (hb : s.busy = false) (c : ResultCode) : Inv (s.raise c) :=
  h.of_leavesIdle hb ⟨hb, rfl, rfl, rfl, rfl, rfl⟩ h.protocol_legal h.repeat_positive h.scheme_legal ⟨c, rfl⟩

/-- What a command may write to the configuration is legal (R27, R28, R29). -/
theorem ConfigurationStep.legal {i : Instr} {s t : State} (h : ConfigurationStep i s t) (hi : Inv s) :
    (1 ≤ t.protocol.toNat ∧ t.protocol.toNat ≤ 6) ∧ 1 ≤ t.repeatCount.toNat ∧ t.scheme.toNat ≤ 4 := by
  refine ⟨?_, ?_, ?_⟩
  · rcases h.protocol with e | ⟨-, h1, h6, e⟩
    · rw [e]; exact hi.protocol_legal
    · omega
  · rcases h.repeatCount with e | ⟨-, h1, e⟩
    · rw [e]; exact hi.repeat_positive
    · omega
  · rcases h.scheme with e | ⟨-, -, h4⟩
    · rw [e]; exact hi.scheme_legal
    · exact h4

/-- An accepted command keeps the invariant: its body leaves the sequencer at rest or starts it, or its error does neither. -/
theorem exec_inv {i : Instr} {s t : State} (hi : Inv s) (hb : s.busy = false) (h : exec i s = .next t) : Inv t := by
  have hi' : Inv (s.beginCommand i.opcode) := hi.beginCommand hb _
  rcases exec_cases h with hok | ⟨c, -, rfl⟩
  · obtain ⟨hp, hr, hs⟩ := (commandBody_configuration hok).legal hi'
    rcases commandBody_sequencer (s := s.beginCommand i.opcode) hb hok with hl | ⟨htx, u, rfl, h1, h2, hu, -⟩
    · exact hi'.of_leavesIdle hb hl hp hr hs ⟨.ok, (commandBody_keepsOperands hok).result⟩
    · obtain ⟨-, -, -, hh, h0⟩ := hi.at_rest hb
      have hop : i.opcode = 0x04 ∨ i.opcode = 0x05 := by
        rcases htx with rfl | ⟨b, rfl⟩
        · exact .inl rfl
        · exact .inr rfl
      rw [start_scheme] at hs
      exact start_inv h1 h2 (by rw [hu]; exact hi.protocol_legal) (by rw [hu]; exact hi.repeat_positive) hs
        (by rw [hu]; exact ⟨rfl, hop⟩) (by rw [hu]; exact h0) (by rw [hu]; exact hh)
  · exact hi'.raise hb c

/-- A host access keeps the invariant, whatever it is. -/
theorem hostAccess_inv {s t : State} {x : Option HostAccess} (hi : Inv s) (h : hostAccess s x = .next t) : Inv t := by
  cases hb : s.busy with
  | true =>
    rw [hostAccess_busy hb h]
    exact hi.withPort _ _ _
  | false =>
    rcases hostAccess_keepsControl_or_runs h with k | ⟨a, w, i, -, -, -, -, he⟩
    · refine hi.of_leavesIdle hb ⟨k.busy.trans hb, k.repLeft, k.wfIdx, k.phase, k.holdLeft, k.startLeft⟩
        (by rw [k.protocol]; exact hi.protocol_legal) (by rw [k.repeatCount]; exact hi.repeat_positive)
        (by rw [k.scheme]; exact hi.scheme_legal) ?_
      rcases k.result with e | e
      · rw [e]; exact hi.result_listed
      · exact ⟨.illegalCmd, e⟩
    · exact exec_inv hi hb he

end Sys2Proof.Machine

/-! The invariant at reset and along every edge, and when BUSY falls and rises (R24, R46, R51, R174). -/

namespace Sys2Proof.Machine

/-- Settles O58: the values of R51, field by field. -/
theorem resetStateMeetsTheInvariant : Obligations.ResetStateMeetsTheInvariant :=
  ⟨by decide, by decide, by decide, ⟨.ok, rfl⟩, fun _ => ⟨rfl, rfl, rfl, rfl, rfl⟩, fun h => nomatch h⟩

/-- Settles O59: a reset edge loads the reset state; any other edge is the sequencer's step, then at most one access, and each
of the two keeps the invariant. -/
theorem everyEdgeKeepsTheInvariant : Obligations.EveryEdgeKeepsTheInvariant := by
  intro s t hi h
  cases hr : s.edgeInput.rst with
  | true =>
    rw [step_of_reset hr] at h
    cases h
    exact resetStateMeetsTheInvariant.withPort _ _ _
  | false =>
    rw [step_of_running hr] at h
    exact hostAccess_inv (atAccess_inv hi) h

/-- Settles O47: no access clears BUSY, so the sequencer's own step did, and that is its last edge. -/
theorem busyFallsOnlyAtTheEnd : Obligations.BusyFallsOnlyAtTheEnd := by
  intro s t hi hr h hb ht
  rw [step_of_running hr] at h
  rcases seqStep_spec Config.build (hi.running hb) with ⟨hrun, -⟩ | ⟨-, -, -, hend⟩
  · have ha : s.atAccess.busy = true := by rw [atAccess_eq, sequencerEdge_busy _ hb]; exact hrun.busy
    rw [hostAccess_busy ha h] at ht
    exact absurd (ha.symm.trans ht) (by decide)
  · exact hend

/-- Settles O48: only a command sets BUSY, and only by starting the sequencer, which no error does. -/
theorem busyRisesOnlyByTransmitOrSend : Obligations.BusyRisesOnlyByTransmitOrSend := by
  intro s t hr ha h ht
  rw [step_of_running hr] at h
  rcases hostAccess_keepsControl_or_runs h with k | ⟨a, w, i, hx, hc, -, hd, he⟩
  · rw [k.busy, ha] at ht; cases ht
  · rcases exec_cases he with hok | ⟨c, -, rfl⟩
    · have hres := (commandBody_keepsOperands hok).result
      rcases commandBody_sequencer (s := s.atAccess.beginCommand i.opcode) ha hok with hl | ⟨hi, u, rfl, h1, -⟩
      · rw [hl.busy] at ht; cases ht
      · exact ⟨a, w, i, hx, hc, hd, hi, hres, by rw [start_wfLen]; exact h1⟩
    · rw [State.raise_busy, State.beginCommand_busy, ha] at ht; cases ht

end Sys2Proof.Machine

/-! What every accepted command writes and reads, and the configuration along an edge (R25 to R31, R83, R221). -/

namespace Sys2Proof.Machine

/-- Settles O54: a body that succeeds leaves STATUS as `issue` wrote it, and an error writes RESULT alone. -/
theorem everyCommandWritesStatusAndNoOperand : Obligations.EveryCommandWritesStatusAndNoOperand := by
  intro i s t h
  rcases exec_cases h with hok | ⟨c, -, rfl⟩
  · have k := commandBody_keepsOperands hok
    exact ⟨k.overrun, k.lastOp, ⟨.ok, k.result⟩, k.arg, k.fam, k.grp, k.dev, k.inputs, k.reply⟩
  · exact ⟨rfl, rfl, ⟨c, rfl⟩, rfl, rfl, rfl, rfl, rfl, rfl⟩

/-! ## The configuration along an edge -/

/-- An accepted command changes the configuration only as R27 to R29 let it, and SCHEME only when it ends OK. -/
theorem exec_configuration {i : Instr} {s t : State} (h : exec i s = .next t) :
    ConfigurationStep i (s.beginCommand i.opcode) t := by
  rcases exec_cases h with hok | ⟨c, -, rfl⟩
  · exact commandBody_configuration hok
  · exact ⟨.inl rfl, .inl rfl, .inl rfl⟩

/-- The opcode of a command's word, under the mask of OP (R80, R82). -/
theorem encode_and_opMask (i : Instr) : encode i &&& 0xFF = i.opcode.setWidth 32 :=
  (opField_eq_iff (encode i) i.opcode).mp (opField_encode i)

/-- A word that decodes to a command is the command's own word (R82). -/
theorem eq_encode_of_decode {w : Word} {i : Instr} (h : decode w = .ok i) : w = encode i := by
  obtain ⟨hr, ho, hs⟩ := decode_eq_ok h
  exact word_ext (hr.trans (reservedField_encode i).symm) (hs.trans (statusField_encode i).symm)
    (ho.trans (opField_encode i).symm)

/-- Settles O56: only a command changes the configuration, on the ARG the edge began with, and the word that decodes to it is
its own. -/
theorem configurationChangesOnlyByItsCommand : Obligations.ConfigurationChangesOnlyByItsCommand := by
  intro s t hr h
  rw [step_of_running hr] at h
  obtain ⟨hp, hn, hs, harg⟩ := atAccess_configuration s
  rcases hostAccess_keepsControl_or_runs h with k | ⟨a, w, i, hx, ha, hb, hd, he⟩
  · exact ⟨fun hne => absurd (k.protocol.trans hp) hne, fun hne => absurd (k.repeatCount.trans hn) hne,
      fun hne => absurd (k.scheme.trans hs) hne⟩
  · obtain rfl := eq_encode_of_decode hd
    have hpres : s.presents (some (.write a (encode i))) := by rw [State.presents, ← hr, ← hx]
    obtain ⟨cp, cn, cs⟩ := exec_configuration he
    simp only [State.beginCommand_protocol, State.beginCommand_repeatCount, State.beginCommand_scheme,
      State.beginCommand_arg, State.beginCommand_result, hp, hn, hs, harg] at cp cn cs
    refine ⟨fun hne => ?_, fun hne => ?_, fun hne => ?_⟩
    · obtain ⟨rfl, h1, h6, hv⟩ := cp.resolve_left hne
      exact ⟨a, hpres, ha, hb, h1, h6, hv⟩
    · obtain ⟨rfl, h1, hv⟩ := cn.resolve_left hne
      exact ⟨a, hpres, ha, hb, h1, hv⟩
    · obtain ⟨⟨b, hi⟩, hres, -⟩ := cs.resolve_left hne
      refine ⟨a, encode i, hpres, ha, hb, ?_, hres⟩
      rcases hi with rfl | rfl
      · exact .inl (encode_and_opMask (.encode b))
      · exact .inr (encode_and_opMask (.send b))

/-! ## What ENCODE reads -/

/-- Two buffers of one length that agree below it hold the same string (R31). -/
theorem StringBuffer.bytes_congr {f g : StringBuffer} (hl : f.len = g.len)
    (hb : ∀ k, k < f.len.toNat → f.byte k = g.byte k) : f.bytes = g.bytes := by
  have hn : f.bytes.length = g.bytes.length := by simp [bytes, allBytes, hl]
  refine List.ext_getElem hn fun k h1 h2 => ?_
  rw [bytes_getElem h1, bytes_getElem h2]
  refine hb k ?_
  rw [bytes, List.length_take] at h1
  omega

/-- The encoder reads a buffer's length and its string, and nothing else of it (R101, R102). -/
theorem encodeFn_congr {f g d f' g' d' : StringBuffer} (b : Bool) (hf : f.len = f'.len) (hg : g.len = g'.len)
    (hd : d.len = d'.len) (bf : f.bytes = f'.bytes) (bg : g.bytes = g'.bytes) (bd : d.bytes = d'.bytes) :
    encodeFn f g d b = encodeFn f' g' d' b := by
  unfold encodeFn StringBuffer.fits
  rw [hf, hg, hd, bf, bg, bd]

/-- Settles O32: the encoder answers both states alike, and ENCODE writes its answer. -/
theorem encodeReadsOnlyTheStrings : Obligations.EncodeReadsOnlyTheStrings := by
  intro b s u t v lf lg ld bf bg bd ht hv
  have he : encodeFn s.fam s.grp s.dev b = encodeFn u.fam u.grp u.dev b :=
    encodeFn_congr b lf lg ld (StringBuffer.bytes_congr lf bf) (StringBuffer.bytes_congr lg bg)
      (StringBuffer.bytes_congr ld bd)
  cases hs : encodeFn s.fam s.grp s.dev b with
  | ok r =>
    rw [exec_encode_ok hs] at ht
    rw [exec_encode_ok (he ▸ hs)] at hv
    cases ht; cases hv
    exact ⟨rfl, fun _ => ⟨rfl, rfl, rfl⟩⟩
  | error c =>
    rw [exec_encode_error hs] at ht
    rw [exec_encode_error (he ▸ hs)] at hv
    cases ht; cases hv
    exact ⟨rfl, fun h0 => absurd ((ResultCode.toByte_eq_zero_iff c).mp h0) (encodeFn_error hs)⟩

end Sys2Proof.Machine

/-! The register map, the layout of every register a host reads, and the edge that accepts a command word (R20, R23, R45, R48,
R49, R61, R68, R69, R83). -/

namespace Sys2Proof.Machine

/-! ## Addresses -/

/-- The low half of the map has its registers at consecutive words (R20). -/
theorem lowRegisters_offset {n : Nat} {r : Reg} (h : lowRegisters[n]? = some r) : r.offset.toNat = 4 * n := by
  obtain ⟨hn, rfl⟩ := List.getElem?_eq_some_iff.mp h
  have all : ∀ k : Fin 26, (lowRegisters[k.val]'k.isLt).offset.toNat = 4 * k.val := by decide
  exact all ⟨n, hn⟩

theorem wfData_offset_toNat (i : Fin 33) : (Reg.wfData i).offset.toNat = 0x100 + 4 * i.val := by
  have := i.isLt
  rw [Reg.offset, BitVec.toNat_ofNat]
  omega

/-- Every register is found at its offset (R20, R61). -/
theorem regAt_offset (r : Reg) : regAt r.offset = some r := by
  cases r with
  | wfData i => revert i; decide
  | _ => decide

/-- Settles O16: the table's own offsets, and its two halves read back from an address. -/
theorem eachRegisterHasOneAddress : Obligations.EachRegisterHasOneAddress := by
  refine ⟨regAt_offset, fun a r h => ?_⟩
  rcases regAt_cases a with ⟨hw, e⟩ | ⟨-, e⟩
  · obtain rfl := Option.some.inj (e.symm.trans h)
    rw [wfData_offset_toNat]
    show _ = 0x100 + 4 * (a.toNat / 4 - 0x40)
    omega
  · rw [lowRegisters_offset (e.symm.trans h)]
    omega

theorem memRead_of_regAt (p : Params) (s : State) {a : Addr} {r : Reg} (h : regAt a = some r) :
    memRead p s a = readReg p s r := by
  simp [memRead, h]

/-- A read at a register's offset reads the register (R68). -/
theorem memRead_offset (p : Params) (s : State) (r : Reg) : memRead p s r.offset = readReg p s r :=
  memRead_of_regAt p s (regAt_offset r)

theorem writeReg_readOnly (s : State) (v : Word) {r : Reg} (h : r.access = .readOnly) : writeReg s v r = s := by
  cases r with
  | status | protocol | repeatCount | scheme | txRepLeft | txPos | pUnit | pSync | pZero | pOne => rfl
  | _ => cases h

/-- Settles O14: a read-only register's write stores nothing, and CMD has no storage to read. -/
theorem readOnlyRegistersIgnoreWrites : Obligations.ReadOnlyRegistersIgnoreWrites := by
  intro p s a r v ha
  refine ⟨fun hr hb => ?_, fun hc => ?_⟩
  · have hcmd : r ≠ .cmd := by rintro rfl; cases hr
    rw [memWrite_reg v hb ha hcmd, writeReg_readOnly s v hr]
  · rw [memRead_of_regAt p s ha, hc]; rfl

/-! ## Reset values -/

theorem proto_reset (p : Params) : State.reset.proto p = protocol1 := by
  rw [State.proto, protoEntry]; exact if_pos rfl

theorem readReg_reset (p : Params) (r : Reg) : readReg p State.reset r = resetWord r := by
  cases r with
  | wfData i => simp [readReg, resetWord, State.reset]
  | pUnit | pSync | pZero | pOne => rw [readReg, proto_reset]; rfl
  | _ => rfl

/-- Settles O9: each register's reset value as R20 lists it, and the hidden state of R51. -/
theorem registersReadTheirResetValues : Obligations.RegistersReadTheirResetValues :=
  ⟨fun p r => (memRead_offset p State.reset r).trans (readReg_reset p r), rfl, rfl, rfl, rfl⟩

/-! ## Layouts -/

/-- The registers that show one field whole, in the order of R20. -/
def fieldRegisters : List Reg :=
  [ .arg, .protocol, .repeatCount, .famLen, .famD0, .famD1, .grpLen, .grpD0, .grpD1, .devLen, .devD0, .devD1, .cwLen, .cwData,
    .binLen, .binData, .wfLen, .scheme ]

theorem registerWords_eq (p : Params) (s : State) :
    s.registerWords = fieldRegisters.map fun r => (r.offset, readReg p s r) := rfl

/-- One bit as a word: the bit at 0, nothing above. -/
theorem getLsbD_bitWord (b : Bool) (k : Nat) : (bitWord b).getLsbD k = (decide (k = 0) && b) := by
  cases k <;> cases b <;> simp [bitWord]

/-- A bit shifted into place `n` of a word. -/
theorem getLsbD_bitWord_shiftLeft (b : Bool) {n k : Nat} (hk : k < 32) :
    (bitWord b <<< n).getLsbD k = (decide (k = n) && b) := by
  rw [BitVec.getLsbD_shiftLeft, getLsbD_bitWord]
  by_cases h : k = n
  · simp [h, h ▸ hk]
  · by_cases hlt : k < n
    · simp [h, hlt]
    · simp [h, show k - n ≠ 0 by omega]

theorem getLsbD_statusWord (s : State) {k : Nat} (hk : k < 32) :
    (statusWord s).getLsbD k =
      if k = 0 then s.busy else if k = 1 then s.overrun else if k < 8 then false
      else if k < 16 then s.result.getLsbD (k - 8) else if k < 24 then s.lastOp.getLsbD (k - 16) else false := by
  simp only [statusWord, BitVec.getLsbD_setWidth, BitVec.getLsbD_append, BitVec.getLsbD_ofBool]
  interval_cases k <;> simp

/-- Settles O18: STATUS is the concatenation of its fields. -/
theorem statusWordLayout : Obligations.StatusWordLayout := by
  intro p s k hk
  rw [show memRead p s 0x004 = statusWord s from memRead_offset p s .status]
  exact getLsbD_statusWord s hk

theorem getLsbD_positionWord (s : State) {k : Nat} (hk : k < 32) :
    (positionWord s).getLsbD k =
      if k < 6 then s.wfIdx.getLsbD k else if k = 8 then s.phase else if k = 16 then s.txOut else false := by
  simp only [positionWord, BitVec.getLsbD_or, getLsbD_bitWord_shiftLeft _ hk, BitVec.getLsbD_setWidth]
  split
  · simp [hk, show k ≠ 8 by omega, show k ≠ 16 by omega]
  · rw [BitVec.getLsbD_of_ge s.wfIdx k (by omega)]
    split
    · simp [*]
    · split <;> simp [*]

theorem getLsbD_unitWord (q : Protocol) {k : Nat} (hk : k < 32) :
    (unitWord q).getLsbD k = if k < 16 then q.pulseUnit.getLsbD k else if k = 31 then q.inverted else false := by
  simp only [unitWord, BitVec.getLsbD_or, getLsbD_bitWord_shiftLeft _ hk, BitVec.getLsbD_setWidth]
  split
  · simp [hk, show k ≠ 31 by omega]
  · rw [BitVec.getLsbD_of_ge q.pulseUnit k (by omega)]
    split <;> simp [*]

theorem getLsbD_countsWord (w : Waveform) {k : Nat} (hk : k < 32) :
    (countsWord w).getLsbD k =
      if k < 8 then w.high.getLsbD k else if k < 16 then w.low.getLsbD (k - 8) else false := by
  simp only [countsWord, waveWord, BitVec.getLsbD_setWidth, hk, decide_true, Bool.true_and]
  refine (BitVec.getLsbD_append (x := w.low) (y := w.high)).trans ?_
  by_cases h8 : k < 8
  · simp [h8]
  · by_cases h16 : k < 16
    · simp [h8, h16]
    · simp [h8, h16, BitVec.getLsbD_of_ge w.low (k - 8) (by omega)]

/-- The layout of PSYNC, PZERO and PONE, whichever waveform is shown (R45). -/
theorem getLsbD_memRead_counts {p : Params} {s : State} {r : Reg} {w : Waveform} (h : readReg p s r = countsWord w) {k : Nat}
    (hk : k < 32) :
    (memRead p s r.offset).getLsbD k =
      if k < 8 then w.high.getLsbD k else if k < 16 then w.low.getLsbD (k - 8) else false := by
  rw [memRead_offset, h, getLsbD_countsWord w hk]

/-- Settles O19: each register read at its offset is its field, and each view register the concatenation of its fields. -/
theorem viewRegisterLayouts : Obligations.ViewRegisterLayouts := by
  refine ⟨fun p s => ⟨fun x hx => ?_, fun i => memRead_offset p s (.wfData i)⟩, fun p s k hk => ⟨?_, ?_, ?_, ?_⟩⟩
  · rw [registerWords_eq p, List.mem_map] at hx
    obtain ⟨r, -, rfl⟩ := hx
    exact memRead_offset p s r
  · rw [show memRead p s 0x050 = s.repLeft.setWidth 32 from memRead_offset p s .txRepLeft, BitVec.getLsbD_setWidth]
    split
    · simp [hk]
    · rw [BitVec.getLsbD_of_ge s.repLeft k (by omega), Bool.and_false]
  · rw [show memRead p s 0x054 = positionWord s from memRead_offset p s .txPos]
    exact getLsbD_positionWord s hk
  · rw [show memRead p s 0x058 = unitWord (s.proto p) from memRead_offset p s .pUnit]
    exact getLsbD_unitWord _ hk
  · rintro a w (⟨rfl, rfl⟩ | ⟨rfl, rfl⟩ | ⟨rfl, rfl⟩)
    · exact getLsbD_memRead_counts (r := .pSync) rfl hk
    · exact getLsbD_memRead_counts (r := .pZero) rfl hk
    · exact getLsbD_memRead_counts (r := .pOne) rfl hk

/-! ## CMD writes -/

theorem issue_of_ok {w : Word} {i : Instr} (s : State) (h : decode w = .ok i) : issue s w = exec i s := by
  simp [issue, h]

theorem issue_of_error {w : Word} {e : DecodeError} (s : State) (h : decode w = .error e) :
    issue s w = .next (s.status (opField w) 0x01) := by
  simp only [issue, h]; rfl

theorem opField_eq_setWidth (w : Word) : opField w = w.setWidth 8 := by
  exact (BitVec.setWidth_eq_extractLsb' (by decide)).symm

/-- At an edge with a write and no reset the step is that write, on the state the sequencer left (R69, R70). -/
theorem step_of_write {s : State} {a : Addr} {w : Word} (h : s.presents (some (.write a w))) :
    step s = memWrite s.atAccess a w := by
  rw [State.presents] at h
  rw [step_of_running (by rw [h]), h]; rfl

/-- Settles O5: `MemWrite` on the state the sequencer left, and at CMD's slot with BUSY = 0 the word issued. -/
theorem stepRunsTheAcceptedCommand : Obligations.StepRunsTheAcceptedCommand := by
  refine ⟨fun s a w hb ha => memWrite_cmd w hb ha, fun s a w hp => ⟨step_of_write hp, fun ha hb => ?_⟩⟩
  have hstep : step s = issue s.atAccess w := (step_of_write hp).trans (memWrite_cmd w hb ha)
  refine ⟨fun i hi => hstep.trans (issue_of_ok _ hi), fun ⟨e, he⟩ => ?_⟩
  rw [hstep, issue_of_error _ he, opField_eq_setWidth]

/-- The placed write finds the block as it was, but for a transmission in progress, ended, and the port's answer, cleared. -/
theorem placeCommand_atAccess (s : State) (w : Word) :
    (placeCommand s w).atAccess = { (if s.busy then finish s else s) with reply := none } := by
  rw [State.atAccess, placeCommand, takeInput_cons]
  cases hb : s.busy with
  | true => rw [sequencerEdge_idle _ (by simp)]; rfl
  | false => rw [sequencerEdge_idle _ (by simpa using hb)]; rfl

/-- A word placed is accepted: the step that follows issues it (R83). -/
theorem step_placeCommand (s : State) (w : Word) :
    step (placeCommand s w) = issue { (if s.busy then finish s else s) with reply := none } w := by
  have hp : (placeCommand s w).presents (some (.write Reg.cmd.offset w)) := rfl
  have hidle : (if s.busy then finish s else s).busy = false := by cases hb : s.busy <;> simp [hb]
  rw [step_of_write hp, placeCommand_atAccess]
  exact memWrite_cmd w hidle regAt_cmd_offset

/-- Settles O6: a command's own word is placed whole, accepted, and decodes to the command. -/
theorem placedCommandRunsAtTheNextStep : Obligations.PlacedCommandRunsAtTheNextStep := by
  intro s i
  have hw : BitVec.ofNat 32 ((encode i).toNat % 2 ^ 32) = encode i := by
    rw [Nat.mod_eq_of_lt (encode i).isLt, BitVec.ofNat_toNat, BitVec.setWidth_eq]
  rw [State.withFetchWord, hw, step_placeCommand, issue_of_ok _ (decode_encode i)]

end Sys2Proof.Machine

/-! What one host write does at every address, and the text `setstr` leaves (R61 to R70, R90, R91). -/

namespace Sys2Proof.Machine

/-! ## Addresses -/

/-- The low half of the map has 26 registers; the slots after them hold none (R62). -/
theorem lowRegisters_getElem?_eq_none_iff (n : Nat) : lowRegisters[n]? = none ↔ 26 ≤ n :=
  List.getElem?_eq_none_iff

/-- The reserved offsets are those between and after the two halves of the map (R62). -/
theorem regAt_eq_none_iff (a : Addr) : regAt a = none ↔ (0x068 ≤ a.toNat ∧ a.toNat < 0x100) ∨ 0x184 ≤ a.toNat := by
  rcases regAt_cases a with ⟨hw, e⟩ | ⟨hw, e⟩
  · simp only [e, reduceCtorEq, false_iff]
    omega
  · rw [e, lowRegisters_getElem?_eq_none_iff]
    omega

theorem memRead_of_regAt_none (p : Params) (s : State) {a : Addr} (h : regAt a = none) : memRead p s a = 0 := by
  simp [memRead, h]

/-- Settles O13: an address outside both halves of the map reaches no register to read or write. -/
theorem reservedOffsetsReadZeroAndIgnoreWrites : Obligations.ReservedOffsetsReadZeroAndIgnoreWrites :=
  fun a => ⟨regAt_eq_none_iff a, fun ha p s v =>
    ⟨memRead_of_regAt_none p s ha, fun hb => memWrite_none v hb ha, fun hb => memWrite_busy a v hb⟩⟩

/-- Settles O15: both accesses use an address only through the register it reaches, and that is the slot's. -/
theorem lowAddressBitsAreIgnored : Obligations.LowAddressBitsAreIgnored := by
  intro a b h p s v
  have hreg : regAt a = regAt b := regAt_congr h
  exact ⟨by rw [memRead, memRead, hreg], by rw [memWrite, memWrite, hreg]⟩

/-! ## Register writes -/

theorem Reg.ne_cmd_of_readWrite {r : Reg} (h : r.access = .readWrite) : r ≠ .cmd := by
  rintro rfl
  cases h

/-- A write at a register's offset writes the register (R69). -/
theorem memWrite_offset {s : State} {r : Reg} (v : Word) (hb : s.busy = false) (hr : r ≠ .cmd) :
    memWrite s r.offset v = .next (writeReg s v r) := memWrite_reg v hb (regAt_offset r) hr

/-- A register write leaves every address of another register, and every reserved one, reading as before. -/
theorem memRead_writeReg_other (p : Params) (s : State) (v : Word) {b : Addr} {r : Reg} (h : regAt b ≠ some r) :
    memRead p (writeReg s v r) b = memRead p s b := by
  cases hb : regAt b with
  | none => rw [memRead_of_regAt_none _ _ hb, memRead_of_regAt_none _ _ hb]
  | some q =>
    have hq : q ≠ r := fun e => h (e ▸ hb)
    rw [memRead_of_regAt _ _ hb, memRead_of_regAt _ _ hb, readReg_writeReg_other p s v hq]

/-- The read/write registers in the order of R20, the 33 entries of WF_DATA apart. -/
def storedRegisters : List Reg :=
  [ .arg, .famLen, .famD0, .famD1, .grpLen, .grpD0, .grpD1, .devLen, .devD0, .devD1, .cwLen, .cwData, .binLen, .binData,
    .wfLen ]

theorem writtenStates_eq (s : State) (v : Word) :
    s.writtenStates v = storedRegisters.map fun r => (r.offset, writeReg s v r) := rfl

/-- Settles O12: the write is `writeReg` of the register reached, which stores into that register's field alone. -/
theorem writtenRegistersReadBack : Obligations.WrittenRegistersReadBack := by
  intro s v hb
  refine ⟨fun p a r ha hr => ⟨writeReg s v r, memWrite_reg v hb ha (Reg.ne_cmd_of_readWrite hr), ?_, ?_, ?_⟩,
    fun x hx => ?_, fun i => memWrite_offset (r := .wfData i) v hb nofun⟩
  · rw [memRead_of_regAt _ _ ha, readReg_writeReg_same p s v r hr]
  · exact fun b hne => memRead_writeReg_other p s v hne
  · obtain ⟨-, -, -, -, -, -, -, -, -, -, holdLeft, startLeft, -, inputs, reply⟩ := writeReg_keeps s v r
    exact ⟨holdLeft, startLeft, inputs, reply⟩
  · rw [writtenStates_eq, List.mem_map] at hx
    obtain ⟨r, hr, rfl⟩ := hx
    have hcmd : r ≠ .cmd := by rintro rfl; exact absurd hr (by decide)
    exact memWrite_offset v hb hcmd

theorem writeReg_busy (s : State) (v : Word) (r : Reg) : (writeReg s v r).busy = s.busy := (writeReg_keeps s v r).1

/-- Settles O17: a dropped write sets OVERRUN again, a register write stores the same bits again, and a write to a reserved
offset does nothing twice. -/
theorem registerWritesAreIdempotent : Obligations.RegisterWritesAreIdempotent := by
  intro s a v ha
  cases hb : s.busy with
  | true =>
    have hdrop : memWrite s.dropWrite a v = .next s.dropWrite.dropWrite := memWrite_busy a v hb
    exact ⟨s.dropWrite, memWrite_busy a v hb, hdrop⟩
  | false =>
    cases hr : regAt a with
    | none => exact ⟨s, memWrite_none v hb hr, memWrite_none v hb hr⟩
    | some r =>
      have hcmd : r ≠ .cmd := fun e => ha (e ▸ hr)
      refine ⟨writeReg s v r, memWrite_reg v hb hr hcmd, ?_⟩
      rw [memWrite_reg v ((writeReg_busy s v r).trans hb) hr hcmd, writeReg_idem]

/-! ## The edge of a read -/

/-- Settles O10: with no reset an edge is its access on the state the sequencer left, and a read's access only answers. -/
theorem readsSeeTheEdgeAndChangeNothing : Obligations.ReadsSeeTheEdgeAndChangeNothing := by
  intro s a rest
  refine ⟨?_, ?_⟩
  · rw [step_of_running rfl, State.atAccess, takeInput_cons]; rfl
  · rw [step_of_running rfl, State.atAccess, takeInput_cons]; rfl

/-! ## Packed bytes -/

theorem byteOf_cons_zero (b : Byte) (w : Word) : byteOf (w <<< 8 ||| b.setWidth 32) 0 = b := by
  refine BitVec.eq_of_getLsbD_eq fun k hk => ?_
  simp [byteOf, hk, show k < 32 by omega]

theorem byteOf_cons_succ (b : Byte) (w : Word) {k : Nat} (hk : k + 1 < 4) :
    byteOf (w <<< 8 ||| b.setWidth 32) (k + 1) = byteOf w k := by
  refine BitVec.eq_of_getLsbD_eq fun j hj => ?_
  have hb : b.getLsbD (8 * (k + 1) + j) = false := BitVec.getLsbD_of_ge _ _ (by omega)
  simp only [byteOf, BitVec.getLsbD_extractLsb', BitVec.getLsbD_or, BitVec.getLsbD_shiftLeft, BitVec.getLsbD_setWidth]
  simp [hj, hb, show ¬8 * (k + 1) + j < 8 by omega, show 8 * (k + 1) + j < 32 by omega,
    show 8 * (k + 1) + j - 8 = 8 * k + j by omega]

/-- A packed data register holds its bytes in order, and 0 in every place after them (R64, R91). -/
theorem byteOf_packBytes (l : List Byte) {k : Nat} (hk : k < 4) : byteOf (packBytes l) k = l.getD k 0 := by
  induction l generalizing k with
  | nil => simp [packBytes, byteOf]
  | cons b bs ih =>
    cases k with
    | zero => simpa [packBytes] using byteOf_cons_zero b (packBytes bs)
    | succ k => rw [packBytes, byteOf_cons_succ b _ hk, ih (by omega)]; simp

/-! ## `setstr` -/

/-- The buffer that `setstr`'s three writes leave (R91). -/
def setstrBuffer (text : List Byte) : StringBuffer where
  len := (BitVec.ofNat 32 text.length).setWidth 8
  d0 := packBytes (text.take 4)
  d1 := packBytes ((text.drop 4).take 4)

theorem setstrBuffer_len {text : List Byte} (h : text.length ≤ 8) : (setstrBuffer text).len.toNat = text.length := by
  simp only [setstrBuffer, BitVec.toNat_setWidth, BitVec.toNat_ofNat]
  omega

/-- Byte `k` of the text lies in D0 below 4, and in D1 from there on (R31). -/
theorem setstrBuffer_byte {text : List Byte} {k : Nat} (hk : k < text.length) (h8 : text.length ≤ 8) :
    (setstrBuffer text).byte k = text[k] := by
  unfold StringBuffer.byte setstrBuffer
  by_cases h4 : k < 4
  · simp [h4, hk, byteOf_packBytes]
  · rw [if_neg h4, byteOf_packBytes _ (by omega)]
    simp [hk, show k - 4 < 4 by omega, show 4 + (k - 4) = k by omega]

theorem setstrBuffer_bytes {text : List Byte} (h : text.length ≤ 8) : (setstrBuffer text).bytes = text := by
  have hlen := setstrBuffer_len h
  refine List.ext_getElem ((StringBuffer.bytes_length (hlen.trans_le h)).trans hlen) fun k h1 h2 => ?_
  rw [StringBuffer.bytes_getElem h1, setstrBuffer_byte h2 h]

theorem writeReg_withPort (s : State) (i : List EdgeInput) (q : Option Word) (v : Word) (r : Reg) :
    writeReg (s.withPort i q) v r = (writeReg s v r).withPort i q := by
  cases r <;> rfl

/-- The edge of a register write leaves an idle block with that register written and the port empty, whatever was waiting at
the port (R69, R70). -/
theorem accessEdge_writeTo {s : State} {r : Reg} (v : Word) (i : List EdgeInput) (q : Option Word) (hb : s.busy = false)
    (hr : r ≠ .cmd) : accessEdge (s.withPort i q) (writeTo r v) = .next ((writeReg s v r).withPort [] none) := by
  have hpres : (s.withPort [⟨false, some (writeTo r v)⟩] q).presents (some (.write r.offset v)) := rfl
  have hport : (s.withPort [⟨false, some (writeTo r v)⟩] q).atAccess = s.withPort [] none := sequencerEdge_idle _ hb
  calc accessEdge (s.withPort i q) (writeTo r v)
      _ = step (s.withPort [⟨false, some (writeTo r v)⟩] q) := rfl
      _ = memWrite (s.withPort [] none) r.offset v := by rw [step_of_write hpres, hport]
      _ = .next (writeReg (s.withPort [] none) v r) := memWrite_offset v hb hr
      _ = .next ((writeReg s v r).withPort [] none) := by rw [writeReg_withPort]

/-- So the accesses that follow find the register written. -/
theorem accessEdges_writeTo_cons {s : State} {r : Reg} (v : Word) (rest : List HostAccess) (i : List EdgeInput)
    (q : Option Word) (hb : s.busy = false) (hr : r ≠ .cmd) :
    accessEdges (writeTo r v :: rest) (s.withPort i q) = accessEdges rest ((writeReg s v r).withPort [] none) := by
  rw [accessEdges, accessEdge_writeTo v i q hb hr]

theorem StringName.registers_ne_cmd (x : StringName) :
    x.registers.1 ≠ .cmd ∧ x.registers.2.1 ≠ .cmd ∧ x.registers.2.2 ≠ .cmd := by
  cases x <;> decide

/-- A string's three registers written with a text leave the text's buffer (R31, R69). -/
theorem writeReg_registers (s : State) (x : StringName) (f : StringBuffer) {v : Word} (hv : v.setWidth 8 = f.len) :
    writeReg (writeReg (writeReg s v x.registers.1) f.d0 x.registers.2.1) f.d1 x.registers.2.2 = s.withString x f := by
  cases x <;> simp only [StringName.registers, writeReg, State.withString, hv]

/-- Settles O60: each write's edge writes its register of the string and the three make the buffer that holds the text. -/
theorem setstrStoresTheText : Obligations.SetstrStoresTheText := by
  intro fuel x text s hb h8
  obtain ⟨hlen, hd0, hd1⟩ := x.registers_ne_cmd
  refine ⟨setstrBuffer text, setstrBuffer_bytes h8, setstrBuffer_len h8, ?_⟩
  have hb1 := (writeReg_busy s (BitVec.ofNat 32 text.length) x.registers.1).trans hb
  have hb2 := (writeReg_busy _ (packBytes (text.take 4)) x.registers.2.1).trans hb1
  have hset := writeReg_registers s x (setstrBuffer text) (v := BitVec.ofNat 32 text.length) rfl
  show accessEdges (HostOp.setstr x text).accesses (s.withPort s.inputs s.reply) = _
  rw [HostOp.accesses, accessEdges_writeTo_cons _ _ _ _ hb hlen, accessEdges_writeTo_cons _ _ _ _ hb1 hd0,
    accessEdges_writeTo_cons _ _ _ _ hb2 hd1, accessEdges]
  exact congrArg (fun t : State => Host.Outcome.next (t.withPort [] none)) hset

end Sys2Proof.Machine

/-! Command words: the decoder against the encoder, against the opcode map, and the illegal words (R80 to R84). -/

namespace Sys2Proof.Machine

/-! ## Decode and encode -/

/-- Settles O2: a decoded word has the command's fields, and a word is its fields. -/
theorem eachCommandHasExactlyOneWord : Obligations.EachCommandHasExactlyOneWord := by
  refine fun w i => ⟨fun h => ?_, fun h => h ▸ decode_encode i⟩
  obtain ⟨hrsv, hop, hs⟩ := decode_eq_ok h
  exact word_ext (by rw [hrsv, reservedField_encode]) (by rw [hs, statusField_encode]) (by rw [hop, opField_encode])

/-- Settles O1: each word listed is its command's word. -/
theorem specCommandWordsDecode : Obligations.SpecCommandWordsDecode :=
  ⟨decode_encode (.encode false), decode_encode (.encode true), decode_encode .expand, decode_encode .compile,
    decode_encode .transmit, decode_encode (.send false), decode_encode (.send true), decode_encode .setProtocol,
    decode_encode .setRepeat⟩

/-! ## The opcode map -/

/-- A word matches a row field by field. -/
theorem hits_iff_fields (r : OpcodeRow) (w : Word) :
    r.hits w = true ↔ reservedField w &&& reservedField r.mask = reservedField r.pattern ∧
      (statusField w && statusField r.mask) = statusField r.pattern ∧
      opField w &&& opField r.mask = opField r.pattern := by
  have hrsv : reservedField (w &&& r.mask) = reservedField w &&& reservedField r.mask := BitVec.extractLsb'_and
  have hs : statusField (w &&& r.mask) = (statusField w && statusField r.mask) := BitVec.getLsbD_and
  have hop : opField (w &&& r.mask) = opField w &&& opField r.mask := BitVec.extractLsb'_and
  rw [OpcodeRow.hits, beq_iff_eq, ← hrsv, ← hs, ← hop]
  exact ⟨fun h => h ▸ ⟨rfl, rfl, rfl⟩, fun ⟨h1, h2, h3⟩ => word_ext h1 h2 h3⟩

/-- A row asks for every bit of RSV and OP; of S it asks at most that it be 0 (R82). -/
theorem opcodeMap_fields : ∀ r ∈ opcodeMap, reservedField r.mask = BitVec.allOnes 23 ∧ reservedField r.pattern = 0 ∧
    statusField r.pattern = false ∧ opField r.mask = BitVec.allOnes 8 := by
  decide

theorem hits_iff_of_mem {r : OpcodeRow} (hr : r ∈ opcodeMap) (w : Word) :
    r.hits w = true ↔ reservedField w = 0 ∧ (statusField w && statusField r.mask) = false ∧
      opField w = opField r.pattern := by
  obtain ⟨hrm, hrp, hsp, hom⟩ := opcodeMap_fields r hr
  rw [hits_iff_fields, hrm, hrp, hsp, hom, BitVec.and_allOnes, BitVec.and_allOnes]

/-- Each row has a command for the status bits it lets pass. -/
theorem exists_command_of_row : ∀ r ∈ opcodeMap, ∀ b : Bool, (b && statusField r.mask) = false →
    ∃ i : Instr, i.opcode = opField r.pattern ∧ i.statusBit = b := by
  have plain {b : Bool} {m : Word} (hm : statusField m = true) (h : (b && statusField m) = false) : false = b := by
    rw [hm, Bool.and_true] at h
    exact h.symm
  simp only [opcodeMap, List.forall_mem_cons]
  exact ⟨fun b _ => ⟨.encode b, rfl, rfl⟩, fun _ h => ⟨.expand, rfl, plain rfl h⟩,
    fun _ h => ⟨.compile, rfl, plain rfl h⟩, fun _ h => ⟨.transmit, rfl, plain rfl h⟩, fun b _ => ⟨.send b, rfl, rfl⟩,
    fun _ h => ⟨.setProtocol, rfl, plain rfl h⟩, fun _ h => ⟨.setRepeat, rfl, plain rfl h⟩, nofun⟩

theorem legal_encode (i : Instr) : legal (encode i) = true := by
  have h : Laws.Legal.Statement i := by
    cases i with
    | encode s => exact Laws.Legal.encode s
    | expand => exact Laws.Legal.expand
    | compile => exact Laws.Legal.compile
    | transmit => exact Laws.Legal.transmit
    | send s => exact Laws.Legal.send s
    | setProtocol => exact Laws.Legal.setProtocol
    | setRepeat => exact Laws.Legal.setRepeat
  obtain ⟨-, -, -, hlegal⟩ := h
  exact hlegal

/-- The words that match a row are the commands' words (R82). -/
theorem legal_iff_exists_encode (w : Word) : legal w = true ↔ ∃ i, w = encode i := by
  refine ⟨fun h => ?_, fun ⟨i, hi⟩ => hi ▸ legal_encode i⟩
  obtain ⟨r, hr, hhit⟩ := List.any_eq_true.mp h
  obtain ⟨hrsv, hs, hop⟩ := (hits_iff_of_mem hr w).mp hhit
  obtain ⟨i, hio, his⟩ := exists_command_of_row r hr _ hs
  exact ⟨i, word_ext (by rw [hrsv, reservedField_encode]) (by rw [statusField_encode, his])
    (by rw [opField_encode, hio, hop])⟩

/-- A word matches at most one row: every row it matches has the word's OP, and no two rows have the same OP. -/
theorem matching_rows_le_one (w : Word) : (opcodeMap.filter fun r => r.hits w).length ≤ 1 := by
  have hsame : (opcodeMap.filter fun r => r.hits w).map (fun r => opField r.pattern) =
      List.replicate (opcodeMap.filter fun r => r.hits w).length (opField w) := by
    refine List.eq_replicate_iff.mpr ⟨List.length_map _, List.forall_mem_map.mpr fun r hr => ?_⟩
    obtain ⟨hmem, hhit⟩ := List.mem_filter.mp hr
    obtain ⟨-, -, hop⟩ := (hits_iff_of_mem hmem w).mp hhit
    exact hop.symm
  have hnodup : (opcodeMap.map fun r => opField r.pattern).Nodup := by decide
  exact List.nodup_replicate.mp (hsame ▸ hnodup.sublist (List.filter_sublist.map _))

/-- Settles O3: the words decoded, like the words that match a row, are the commands' words. -/
theorem decodesExactlyWhenARowMatches : Obligations.DecodesExactlyWhenARowMatches :=
  fun w => ⟨(exists_congr (eachCommandHasExactlyOneWord w)).trans (legal_iff_exists_encode w).symm, matching_rows_le_one w⟩

/-! ## Illegal words -/

/-- Settles O4: the decoder's reasons by R84's masks, and what `issue` does with a refused word. -/
theorem illegalWordsOnlyWriteStatus : Obligations.IllegalWordsOnlyWriteStatus := by
  refine fun w => ⟨?_, fun ⟨e, he⟩ s => by rw [issue_of_error s he, opField_eq_setWidth]⟩
  have hzero : (opField w).toNat = 0 ↔ w &&& 0xFF = 0 := by
    rw [← opField_toNat]
    exact BitVec.toNat_inj (y := 0)
  have hone : opField w = 0x01 ↔ w &&& 0xFF = 1 := opField_eq_iff w 0x01
  have hfive : opField w = 0x05 ↔ w &&& 0xFF = 5 := opField_eq_iff w 0x05
  rw [decode_eq_error_iff, hzero, ← opField_toNat, Ne, reservedField_eq_zero_iff, Ne, hone, Ne, hfive]
  exact or_left_comm

end Sys2Proof.Machine

/-! The codeword read back from CW_DATA, the dispatch by the strings' shape, and Type A (R100 to R113). -/

namespace Sys2Proof.Machine

/-! ## The symbols a word shows -/

/-- A CW_DATA word has these symbols in the places from `i` on (R35, R87). -/
def showsAt (w : Word) (i : Nat) (t : List Tri) : Prop := ∀ k, (h : k < t.length) → symbolAt w (i + k) = t[k].code

theorem showsAt_packSymbols {t : List Tri} (ht : t.length ≤ 16) : showsAt (packSymbols t) 0 t := by
  intro k hk
  rw [Nat.zero_add, symbolAt_packSymbols t (by omega), List.getD_eq_getElem _ _ (by simpa using hk), List.getElem_map]

/-- Joined blocks stand one after the other. -/
theorem showsAt_append (w : Word) (i : Nat) (t u : List Tri) :
    showsAt w i (t ++ u) ↔ showsAt w i t ∧ showsAt w (i + t.length) u := by
  refine ⟨fun h => ⟨fun k hk => ?_, fun k hk => ?_⟩, fun ⟨h1, h2⟩ k hk => ?_⟩
  · rw [h k (by simp; omega), List.getElem_append_left hk]
  · rw [Nat.add_assoc, h (t.length + k) (by simpa using hk), List.getElem_append_right (by omega)]
    simp
  · by_cases hlt : k < t.length
    · rw [List.getElem_append_left hlt, h1 k hlt]
    · have hu : k - t.length < u.length := by rw [List.length_append] at hk; omega
      rw [List.getElem_append_right (by omega), ← h2 _ hu, show i + t.length + (k - t.length) = i + k by omega]

theorem showsAt_cons (w : Word) (i : Nat) (x : Tri) (t : List Tri) :
    showsAt w i (x :: t) ↔ symbolAt w i = x.code ∧ showsAt w (i + 1) t := by
  have hx : showsAt w i [x] ↔ symbolAt w i = x.code := by simp [showsAt]
  rw [← hx]
  exact showsAt_append w i [x] t

/-- The places after a codeword hold 0b00 (R103). -/
theorem symbolAt_packSymbols_tail {t : List Tri} (ht : t.length = 12) {k : Nat} (h12 : 12 ≤ k) (h16 : k < 16) :
    symbolAt (packSymbols t) k = 0b00 := by
  rw [symbolAt_packSymbols t h16, List.getD_eq_default _ _ (by simpa [ht] using h12)]

/-! ## What ENCODE does with the encoder's answer, as the statements word it -/

/-- A codeword answered: STATUS, CW_LEN, CW_DATA and SCHEME are written, and the word shows the codeword (R103). -/
theorem exec_encode_codeword {b : Bool} {s : State} {k : Scheme} {t : List Tri}
    (h : encodeFn s.fam s.grp s.dev b = .ok (k, t)) :
    ∃ w : Word, exec (.encode b) s = .next { s.status 0x01 0x00 with cwLen := 12, cwData := w, scheme := k.code } ∧
      showsAt w 0 t ∧ ∀ j, 12 ≤ j → j < 16 → symbolAt w j = 0b00 :=
  have ht := encodeFn_length h
  ⟨packSymbols t, exec_encode_ok h, showsAt_packSymbols (by omega), fun _ => symbolAt_packSymbols_tail ht⟩

theorem exec_encode_succeeds {b : Bool} {s : State} {r : Scheme × List Tri} (h : encodeFn s.fam s.grp s.dev b = .ok r) :
    ∃ t, exec (.encode b) s = .next t ∧ t.result = 0x00 := by
  obtain ⟨w, hw, -, -⟩ := exec_encode_codeword h
  exact ⟨_, hw, rfl⟩

/-- An error of the encoder is ENCODE's and SEND's, for either S (R104, R180). -/
theorem encodingFails_of_error {s : State} {c : ResultCode} (h : ∀ b, encodeFn s.fam s.grp s.dev b = .error c) :
    encodingFails s c.toByte := fun b => ⟨exec_encode_error (h b), exec_send_error (h b)⟩

theorem Scheme.one_le_code (k : Scheme) : 1 ≤ k.code.toNat := by cases k <;> decide

/-- Settles O31: a success writes the encoder's twelve symbols, packed, and the number of its scheme. -/
theorem encodedSymbolsAreValid : Obligations.EncodedSymbolsAreValid := by
  intro b s t h hr
  obtain ⟨k, l, he, rfl⟩ := encodeOp_eq_ok (exec_ok_body h hr)
  have hl := encodeFn_length he
  exact ⟨rfl, fun _ => symbolAt_packSymbols_valid l hl, fun _ => symbolAt_packSymbols_tail hl, k.one_le_code, k.code_le⟩

/-! ## Strings -/

theorem StringBuffer.bytes_of_len_zero {f : StringBuffer} (h : f.len = 0) : f.bytes = [] := by
  rw [bytes_of_len (n := 0) (by rw [h]; rfl), List.take_zero]

theorem StringBuffer.bytes_of_len_one {f : StringBuffer} (h : f.len = 1) : f.bytes = [f.byte 0] :=
  bytes_of_len (n := 1) (by rw [h]; rfl)

/-- LEN of a string that fits is the number of its bytes. -/
theorem StringBuffer.length_bytes_iff {f : StringBuffer} (h : f.len.toNat ≤ 8) (n : Byte) :
    f.bytes.length = n.toNat ↔ f.len = n := by
  rw [bytes_length h, BitVec.toNat_inj]

/-! ## Dispatch by shape (R101, R102) -/

section
variable {f g d : StringBuffer} (b : Bool)

theorem encodeFn_of_tooLong (h : 8 < f.len.toNat ∨ 8 < g.len.toNat ∨ 8 < d.len.toNat) : encodeFn f g d b = .error .len := by
  rw [encodeFn, if_neg]
  simp only [Bool.and_eq_true, StringBuffer.fits_iff]
  omega

theorem encodeFn_of_fits (hf : f.len.toNat ≤ 8) (hg : g.len.toNat ≤ 8) (hd : d.len.toNat ≤ 8) :
    encodeFn f g d b = dispatchScheme f.bytes g.bytes d.bytes b := by
  rw [encodeFn, if_pos]
  simp only [Bool.and_eq_true, StringBuffer.fits_iff]
  exact ⟨⟨hf, hg⟩, hd⟩

theorem dispatchScheme_family {fam : List Byte} (grp dev : List Byte) (h : fam ≠ []) :
    dispatchScheme fam grp dev b = asScheme .typeC (typeC fam grp dev b) :=
  if_pos (List.length_pos_of_ne_nil h)

theorem dispatchScheme_long {grp dev : List Byte} (hg : 1 < grp.length) (hd : 1 < dev.length) :
    dispatchScheme [] grp dev b = asScheme .typeA (typeA grp dev b) := by
  unfold dispatchScheme
  rw [if_neg (by decide), if_pos ⟨hg, hd⟩]

/-- One byte each: the device's class, then the group's, chooses (R102). -/
theorem dispatchScheme_bytes (x y : Byte) :
    dispatchScheme [] [x] [y] b =
      if isDigit y then (if isDigit x then asScheme .typeB (typeB x y b) else asScheme .typeD (typeD x y b))
      else .error .deviceNotInt := rfl

theorem dispatchScheme_otherShape {grp dev : List Byte} (hlong : ¬(1 < grp.length ∧ 1 < dev.length))
    (hone : ¬(grp.length = 1 ∧ dev.length = 1)) : dispatchScheme [] grp dev b = .error .unsupported := by
  unfold dispatchScheme
  rw [if_neg (by decide), if_neg hlong]
  split
  · exact absurd ⟨rfl, rfl⟩ hone
  · rfl

theorem encodeFn_family (hf : f.len.toNat ≤ 8) (hg : g.len.toNat ≤ 8) (hd : d.len.toNat ≤ 8) (h0 : f.len ≠ 0) :
    encodeFn f g d b = asScheme .typeC (typeC f.bytes g.bytes d.bytes b) := by
  rw [encodeFn_of_fits b hf hg hd, dispatchScheme_family]
  exact fun h => h0 ((StringBuffer.length_bytes_iff hf 0).mp (by rw [h]; rfl))

theorem encodeFn_noFamily (hf : f.len = 0) (hg : g.len.toNat ≤ 8) (hd : d.len.toNat ≤ 8) :
    encodeFn f g d b = dispatchScheme [] g.bytes d.bytes b := by
  rw [encodeFn_of_fits b (by rw [hf]; decide) hg hd, StringBuffer.bytes_of_len_zero hf]

theorem encodeFn_long (hf : f.len = 0) (hg : g.len.toNat ≤ 8) (hd : d.len.toNat ≤ 8) (hg1 : 1 < g.len.toNat)
    (hd1 : 1 < d.len.toNat) : encodeFn f g d b = asScheme .typeA (typeA g.bytes d.bytes b) := by
  rw [encodeFn_noFamily b hf hg hd, dispatchScheme_long]
  · rwa [StringBuffer.bytes_length hg]
  · rwa [StringBuffer.bytes_length hd]

theorem encodeFn_oneByte (hf : f.len = 0) (hg : g.len = 1) (hd : d.len = 1) :
    encodeFn f g d b =
      if isDigit (d.byte 0) then
        if isDigit (g.byte 0) then asScheme .typeB (typeB (g.byte 0) (d.byte 0) b)
        else asScheme .typeD (typeD (g.byte 0) (d.byte 0) b)
      else .error .deviceNotInt := by
  rw [encodeFn_noFamily b hf (by rw [hg]; decide) (by rw [hd]; decide), StringBuffer.bytes_of_len_one hg,
    StringBuffer.bytes_of_len_one hd, dispatchScheme_bytes]

theorem encodeFn_typeB (hf : f.len = 0) (hg : g.len = 1) (hd : d.len = 1) (xg : digitByte (g.byte 0))
    (xd : digitByte (d.byte 0)) : encodeFn f g d b = asScheme .typeB (typeB (g.byte 0) (d.byte 0) b) := by
  rw [encodeFn_oneByte b hf hg hd, if_pos ((isDigit_iff _).mpr xd), if_pos ((isDigit_iff _).mpr xg)]

theorem encodeFn_typeD (hf : f.len = 0) (hg : g.len = 1) (hd : d.len = 1) (xg : ¬digitByte (g.byte 0))
    (xd : digitByte (d.byte 0)) : encodeFn f g d b = asScheme .typeD (typeD (g.byte 0) (d.byte 0) b) := by
  rw [encodeFn_oneByte b hf hg hd, if_pos ((isDigit_iff _).mpr xd), if_neg (mt (isDigit_iff _).mp xg)]

theorem encodeFn_deviceNotInt (hf : f.len = 0) (hg : g.len = 1) (hd : d.len = 1) (xd : ¬digitByte (d.byte 0)) :
    encodeFn f g d b = .error .deviceNotInt := by
  rw [encodeFn_oneByte b hf hg hd, if_neg (mt (isDigit_iff _).mp xd)]

theorem encodeFn_otherShape (hf : f.len = 0) (hg : g.len.toNat ≤ 8) (hd : d.len.toNat ≤ 8)
    (hlong : ¬(1 < g.len.toNat ∧ 1 < d.len.toNat)) (hone : ¬(g.len = 1 ∧ d.len = 1)) :
    encodeFn f g d b = .error .unsupported := by
  rw [encodeFn_noFamily b hf hg hd, dispatchScheme_otherShape]
  · rwa [StringBuffer.bytes_length hg, StringBuffer.bytes_length hd]
  · rwa [← StringBuffer.length_bytes_iff hg 1, ← StringBuffer.length_bytes_iff hd 1] at hone

end

/-- Settles O24: the length check comes before the dispatch. -/
theorem tooLongStringsAreLengthErrors : Obligations.TooLongStringsAreLengthErrors :=
  fun _ h => encodingFails_of_error (c := .len) fun b => encodeFn_of_tooLong b h

/-- Settles O25: the last two answers of the dispatch. -/
theorem dispatchErrors : Obligations.DispatchErrors := by
  intro s ⟨_, hg, hd⟩ h0
  exact ⟨fun g1 d1 xd => encodingFails_of_error (c := .deviceNotInt) fun b => encodeFn_deviceNotInt b h0 g1 d1 xd,
    fun hlong hone => encodingFails_of_error (c := .unsupported) fun b => encodeFn_otherShape b h0 hg hd hlong hone⟩

/-! ## Type A (R110 to R113) -/

theorem typeA_groupLen {g : List Byte} (d : List Byte) (b : Bool) (hg : g.length ≠ 5) :
    asScheme .typeA (typeA g d b) = .error .aGroupLen := by
  rw [typeA, if_pos hg]; rfl

theorem typeA_deviceLen {g d : List Byte} (b : Bool) (hg : g.length = 5) (hd : d.length ≠ 5) :
    asScheme .typeA (typeA g d b) = .error .aDeviceLen := by
  rw [typeA, if_neg (not_not_intro hg), if_pos hd]; rfl

theorem typeA_ok {g d : List Byte} (b : Bool) (hg : g.length = 5) (hd : d.length = 5) :
    asScheme .typeA (typeA g d b) = .ok (.typeA,
      g.map typeASymbol ++ d.map typeASymbol ++ if b then [.zero, .float] else [.float, .zero]) := by
  rw [typeA, if_neg (not_not_intro hg), if_neg (not_not_intro hd)]; rfl

theorem typeASymbol_code (x : Byte) : (typeASymbol x).code = if x = 0x30 then 0b10 else 0b00 := by
  rw [typeASymbol]; split <;> rfl

/-- A string of five bytes as Type A symbols, byte by byte (R112). -/
theorem showsAt_typeASymbols {w : Word} {i : Nat} {f : StringBuffer} (hl : f.bytes.length = 5)
    (h : showsAt w i (f.bytes.map typeASymbol)) {k : Nat} (hk : k < 5) :
    symbolAt w (i + k) = if f.byte k = 0x30 then 0b10 else 0b00 := by
  rw [h k (by simpa [hl] using hk), List.getElem_map, typeASymbol_code, StringBuffer.bytes_getElem]

theorem encodeFn_typeA_ok {f g d : StringBuffer} (b : Bool) (hf : f.len = 0) (hg : g.len = 5) (hd : d.len = 5) :
    encodeFn f g d b = .ok (.typeA, g.bytes.map typeASymbol ++ d.bytes.map typeASymbol ++
      if b then [.zero, .float] else [.float, .zero]) := by
  have g5 : g.len.toNat = 5 := by rw [hg]; rfl
  have d5 : d.len.toNat = 5 := by rw [hd]; rfl
  rw [encodeFn_long b hf (by omega) (by omega) (by omega) (by omega),
    typeA_ok b ((StringBuffer.bytes_length (by omega)).trans g5) ((StringBuffer.bytes_length (by omega)).trans d5)]

/-- Settles O20: the group's five symbols, the device's, and the two of S. -/
theorem typeACodewordAndFrame : Obligations.TypeACodewordAndFrame := by
  intro b s hf hg hd
  obtain ⟨w, he, hs, htail⟩ := exec_encode_codeword (encodeFn_typeA_ok b hf hg hd)
  have lg : s.grp.bytes.length = 5 := by rw [StringBuffer.bytes_length] <;> rw [hg] <;> decide
  have ld : s.dev.bytes.length = 5 := by rw [StringBuffer.bytes_length] <;> rw [hd] <;> decide
  simp only [showsAt_append, List.length_append, List.length_map, lg, ld] at hs
  obtain ⟨⟨hgrp, hdev⟩, hon⟩ := hs
  refine ⟨w, he, fun k hk => ?_, fun k hk => showsAt_typeASymbols ld hdev hk, ?_, ?_, htail⟩
  · simpa using showsAt_typeASymbols lg hgrp hk
  · cases b <;> exact hon 0 (by decide)
  · cases b <;> exact hon 1 (by decide)

/-- Settles O26: the two lengths, the group's first, are all that is checked. -/
theorem typeALengthErrors : Obligations.TypeALengthErrors := by
  intro s ⟨_, hg, hd⟩ h0 g1 d1
  have hlen (b : Bool) := encodeFn_long b h0 hg hd g1 d1
  have lg := StringBuffer.length_bytes_iff hg 5
  have ld := StringBuffer.length_bytes_iff hd 5
  refine ⟨fun gx => encodingFails_of_error (c := .aGroupLen) fun b => ?_,
    fun g5 dx => encodingFails_of_error (c := .aDeviceLen) fun b => ?_,
    fun g5 d5 b => exec_encode_succeeds (encodeFn_typeA_ok b h0 g5 d5)⟩
  · rw [hlen, typeA_groupLen _ b (mt lg.mp gx)]
  · rw [hlen, typeA_deviceLen b (lg.mpr g5) (mt ld.mp dx)]

end Sys2Proof.Machine

/-! The codewords and errors of Types B, C and D: blocks of symbols, digits and letters, and the integers 1..4 that a string
spells (R120 to R138). -/

namespace Sys2Proof.Machine

/-! ## Blocks of symbols -/

/-- A block whose symbols come from consecutive numbers, place by place. -/
theorem symbolAt_of_showsAt_range {w : Word} {i a n : Nat} {f : Nat → Tri}
    (h : showsAt w i ((List.range' a n).map f)) {k : Nat} (hk : k < n) : symbolAt w (i + k) = (f (a + k)).code := by
  rw [h k (by simpa using hk), List.getElem_map, List.getElem_range', Nat.one_mul]

theorem symbolAt_of_showsAt_oneHotB {w : Word} {i n : Nat} (h : showsAt w i (oneHotB n)) {k : Nat} (hk : k < 4) :
    symbolAt w (i + k) = if k + 1 = n then 0b00 else 0b10 := by
  have hc := symbolAt_of_showsAt_range (a := 1) (n := 4) h hk
  rw [hc, Nat.add_comm 1 k]
  split <;> rfl

theorem symbolAt_of_showsAt_familySymbols {w : Word} {i v : Nat} (h : showsAt w i (familySymbols v)) {k : Nat}
    (hk : k < 4) : symbolAt w (i + k) = if v.testBit k then 0b10 else 0b00 := by
  have hc := symbolAt_of_showsAt_range (a := 0) (n := 4) h hk
  rw [hc, Nat.zero_add]
  split <;> rfl

theorem symbolAt_of_showsAt_conf {w : Word} {i n : Nat} (h : showsAt w i (conf n)) {k : Nat} (hk : k < 2) :
    symbolAt w (i + k) = if (n - 1).testBit k then 0b00 else 0b10 := by
  have hc := symbolAt_of_showsAt_range (a := 0) (n := 2) h hk
  rw [hc, Nat.zero_add]
  split <;> rfl

theorem symbolAt_of_showsAt_oneHotD {w : Word} {i n m : Nat} (h : showsAt w i (oneHotD n m)) {k : Nat} (hk : k < n) :
    symbolAt w (i + k) = if k = m then 0b11 else 0b10 := by
  rw [oneHotD, List.range_eq_range'] at h
  rw [symbolAt_of_showsAt_range h hk, Nat.zero_add]
  split <;> rfl

/-- A symbol repeated, place by place. -/
theorem symbolAt_of_showsAt_replicate {w : Word} {i n : Nat} {x : Tri} (h : showsAt w i (List.replicate n x)) {k : Nat}
    (hi : i ≤ k) (hk : k < i + n) : symbolAt w k = x.code := by
  have hc := h (k - i) (by rw [List.length_replicate]; omega)
  rwa [List.getElem_replicate, Nat.add_sub_cancel' hi] at hc

/-- The last symbol of Types B and C (R121, R129). -/
theorem symbolAt_of_showsAt_status {w : Word} {i : Nat} {b : Bool}
    (h : showsAt w i [if b then .float else .zero]) : symbolAt w i = if b then 0b10 else 0b00 := by
  rw [((showsAt_cons w i _ _).mp h).1]
  split <;> rfl

/-! ## Type B (R120, R121) -/

theorem digitValue_of_toNat {x : Byte} {n : Nat} (h : x.toNat = 0x30 + n) : digitValue x = n := by
  rw [digitValue, h, Nat.add_sub_cancel_left]

theorem typeB_groupRange {g : Byte} (d : Byte) (b : Bool) (hg : digitValue g < 1 ∨ digitValue g > 4) :
    asScheme .typeB (typeB g d b) = .error .bGroupRange := by
  rw [typeB, if_pos hg]; rfl

theorem typeB_deviceRange {g d : Byte} (b : Bool) (hg : ¬(digitValue g < 1 ∨ digitValue g > 4))
    (hd : digitValue d < 1 ∨ digitValue d > 4) : asScheme .typeB (typeB g d b) = .error .bDeviceRange := by
  rw [typeB, if_neg hg, if_pos hd]; rfl

theorem typeB_ok {g d : Byte} (b : Bool) (hg : ¬(digitValue g < 1 ∨ digitValue g > 4))
    (hd : ¬(digitValue d < 1 ∨ digitValue d > 4)) :
    asScheme .typeB (typeB g d b) = .ok (.typeB, oneHotB (digitValue g) ++ oneHotB (digitValue d) ++
      List.replicate 3 .float ++ [if b then .float else .zero]) := by
  rw [typeB, if_neg hg, if_neg hd]; rfl

/-- Settles O21: the group's block, the device's, three `F` and the symbol of S. -/
theorem typeBCodewordAndFrame : Obligations.TypeBCodewordAndFrame := by
  intro b s g d hf lg ld g1 g4 hg d1 d4 hd
  have vg := digitValue_of_toNat hg
  have vd := digitValue_of_toNat hd
  have hok := (encodeFn_typeB b hf lg ld (by rw [digitByte]; omega) (by rw [digitByte]; omega)).trans
    (typeB_ok b (by omega) (by omega))
  obtain ⟨w, he, hs, htail⟩ := exec_encode_codeword hok
  simp only [showsAt_append, List.length_append, length_oneHotB, List.length_replicate, vg, vd] at hs
  obtain ⟨⟨⟨hgrp, hdev⟩, hfill⟩, hon⟩ := hs
  refine ⟨w, he, fun k hk => ?_, fun k hk => symbolAt_of_showsAt_oneHotB hdev hk,
    fun k h8 h11 => symbolAt_of_showsAt_replicate hfill h8 h11, symbolAt_of_showsAt_status hon, htail⟩
  simpa using symbolAt_of_showsAt_oneHotB hgrp hk

/-- Settles O27: the group's range, then the device's. -/
theorem typeBRangeErrors : Obligations.TypeBRangeErrors := by
  intro s hf lg ld xg xd
  have hB (b : Bool) := encodeFn_typeB b hf lg ld xg xd
  refine ⟨fun hg => encodingFails_of_error (c := .bGroupRange) fun b => ?_,
    fun g1 g4 hd => encodingFails_of_error (c := .bDeviceRange) fun b => ?_⟩
  · rw [hB, typeB_groupRange _ b (by rw [digitValue]; omega)]
  · rw [hB, typeB_deviceRange b (by rw [digitValue]; omega) (by rw [digitValue]; omega)]

/-! ## Type D (R135 to R138) -/

theorem lower_toNat (x : Byte) :
    (lower x).toNat = if 0x41 ≤ x.toNat ∧ x.toNat ≤ 0x5A then x.toNat + 0x20 else x.toNat := by
  simp only [lower, Bool.and_eq_true, decide_eq_true_eq]
  split
  · rw [BitVec.toNat_add]; simp; omega
  · rfl

theorem letterByte_iff_lower (x : Byte) (k : Nat) : letterByte x k ↔ k < 4 ∧ (lower x).toNat = 0x61 + k := by
  rw [letterByte, lower_toNat]
  split <;> omega

theorem not_digitByte_of_letterByte {x : Byte} {k : Nat} (h : letterByte x k) : ¬digitByte x := by
  rw [letterByte] at h
  rw [digitByte]
  omega

/-- The generator's letter check: the byte is some letter a..d (R135). -/
theorem exists_letterByte_iff (x : Byte) :
    (∃ k, letterByte x k) ↔ ¬((lower x).toNat < 0x61 ∨ (lower x).toNat > 0x64) := by
  simp only [letterByte_iff_lower]
  exact ⟨fun ⟨k, hk⟩ => by omega, fun h => ⟨(lower x).toNat - 0x61, by omega⟩⟩

theorem typeD_group {g : Byte} (d : Byte) (b : Bool) (hg : ¬∃ k, letterByte g k) :
    asScheme .typeD (typeD g d b) = .error .dGroup := by
  rw [exists_letterByte_iff, not_not] at hg
  rw [typeD, if_pos hg]; rfl

theorem typeD_device {g d : Byte} (b : Bool) (hg : ∃ k, letterByte g k) (hd : digitValue d < 1 ∨ digitValue d > 3) :
    asScheme .typeD (typeD g d b) = .error .dDevice := by
  rw [exists_letterByte_iff] at hg
  rw [typeD, if_neg hg, if_pos hd]; rfl

theorem typeD_ok {g d : Byte} {k : Nat} (b : Bool) (hg : letterByte g k) (hd : ¬(digitValue d < 1 ∨ digitValue d > 3)) :
    asScheme .typeD (typeD g d b) = .ok (.typeD, oneHotD 4 k ++ oneHotD 3 (digitValue d - 1) ++ List.replicate 3 .zero ++
      if b then [.one, .zero] else [.zero, .one]) := by
  have hk : (lower g).toNat - 0x61 = k := by
    rw [((letterByte_iff_lower g k).mp hg).2, Nat.add_sub_cancel_left]
  rw [typeD, if_neg ((exists_letterByte_iff g).mp ⟨k, hg⟩), if_neg hd, hk]; rfl

/-- Settles O23: the letter's block, the device's, three `0` and the two symbols of S. -/
theorem typeDCodewordAndFrame : Obligations.TypeDCodewordAndFrame := by
  intro b s g d hf lg ld hg d1 d3 hd
  have vd := digitValue_of_toNat hd
  have hok := (encodeFn_typeD b hf lg ld (not_digitByte_of_letterByte hg) (by rw [digitByte]; omega)).trans
    (typeD_ok b hg (by omega))
  obtain ⟨w, he, hs, htail⟩ := exec_encode_codeword hok
  simp only [showsAt_append, List.length_append, length_oneHotD, List.length_replicate, vd] at hs
  obtain ⟨⟨⟨hgrp, hdev⟩, hfill⟩, hon⟩ := hs
  refine ⟨w, he, fun k hk => ?_, fun k hk => ?_, fun k h7 h10 => symbolAt_of_showsAt_replicate hfill h7 h10, ?_, ?_, htail⟩
  · simpa using symbolAt_of_showsAt_oneHotD hgrp hk
  · rw [symbolAt_of_showsAt_oneHotD hdev hk]
    exact if_congr (by omega) rfl rfl
  · cases b <;> exact hon 0 (by decide)
  · cases b <;> exact hon 1 (by decide)

/-- Settles O29: the letter, then the device's range. -/
theorem typeDErrors : Obligations.TypeDErrors := by
  intro s hf lg ld xg xd
  have hD (b : Bool) := encodeFn_typeD b hf lg ld xg xd
  refine ⟨fun hg => encodingFails_of_error (c := .dGroup) fun b => ?_,
    fun hg hd => encodingFails_of_error (c := .dDevice) fun b => ?_⟩
  · rw [hD, typeD_group _ b hg]
  · rw [hD, typeD_device b hg (by rw [digitValue]; omega)]

/-! ## Type C: the family (R125, R126) -/

theorem isHex_iff (x : Byte) :
    isHex x = true ↔ (0x30 ≤ x.toNat ∧ x.toNat ≤ 0x39) ∨ (0x61 ≤ x.toNat ∧ x.toNat ≤ 0x66) ∨
      (0x41 ≤ x.toNat ∧ x.toNat ≤ 0x46) := by
  simp [isHex, isDigit, or_assoc]

theorem hexByte_iff (x : Byte) (v : Nat) : hexByte x v ↔ isHex x = true ∧ hexValue x = v := by
  simp only [hexByte, isHex_iff, hexValue, isDigit_iff, lower_toNat]
  split
  · omega
  · split <;> omega

theorem familyValue_eq_some_iff {f : StringBuffer} (h8 : f.len.toNat ≤ 8) (v : Nat) :
    familyValue f.bytes = some v ↔ f.len = 1 ∧ hexByte (f.byte 0) v := by
  by_cases h1 : f.len = 1
  · rw [StringBuffer.bytes_of_len_one h1, hexByte_iff, familyValue]
    simp [h1]
  · have hne : f.bytes.length ≠ 1 := mt (StringBuffer.length_bytes_iff h8 1).mp h1
    have hnone : familyValue f.bytes = none := by
      unfold familyValue
      split
      · rename_i x hx
        exact absurd (by rw [hx]; rfl) hne
      · rfl
    simp only [hnone, reduceCtorEq, false_iff]
    exact fun ⟨hlen, _⟩ => h1 hlen

/-! ## Type C: the integers 1..4, leading zeros allowed (R15, R125) -/

theorem intValue_concat (l : List Byte) (x : Byte) : intValue (l ++ [x]) = 10 * intValue l + digitValue x := by
  rw [intValue, List.foldl_append]; rfl

/-- A digit string is worth 0 when all its digits are '0'. -/
theorem intValue_eq_zero_iff {l : List Byte} (hd : ∀ x ∈ l, digitByte x) : intValue l = 0 ↔ ∀ x ∈ l, x = 0x30 := by
  induction l with
  | nil => simp [intValue]
  | cons x xs ih =>
    obtain ⟨hx, hxs⟩ := List.forall_mem_cons.mp hd
    have h0 : digitValue x = 0 ↔ x = 0x30 := by
      rw [← BitVec.toNat_inj, digitValue]
      show _ ↔ x.toNat = 0x30
      rw [digitByte] at hx
      omega
    rw [intValue_cons, Nat.add_eq_zero_iff, ih hxs, List.forall_mem_cons, Nat.mul_eq_zero, h0]
    simp

theorem oneToFour_nil : oneToFour [] = none := rfl

theorem oneToFour_eq_some_iff (l : List Byte) (n : Nat) :
    oneToFour l = some n ↔ (l ≠ [] ∧ ∀ x ∈ l, digitByte x) ∧ intValue l = n ∧ 1 ≤ n ∧ n ≤ 4 := by
  have hdig : (l ≠ [] ∧ l.all isDigit) ↔ l ≠ [] ∧ ∀ x ∈ l, digitByte x := by
    simp only [List.all_eq_true, isDigit_iff, digitByte]
  rw [← hdig, oneToFour, parseInt]
  by_cases h : l ≠ [] ∧ l.all isDigit
  · rw [if_pos h]
    simp only [Option.ite_none_right_eq_some, Option.some.injEq]
    exact ⟨fun ⟨h14, hn⟩ => ⟨h, hn, hn ▸ h14⟩, fun ⟨_, hn, h14⟩ => ⟨hn ▸ h14, hn⟩⟩
  · rw [if_neg h]
    simp only [reduceCtorEq, false_iff]
    exact fun ⟨hl, _⟩ => h hl

/-- The strings read as `n` in 1..4: zeros, then the digit `n`. -/
theorem oneToFour_concat_eq_some_iff (l : List Byte) (x : Byte) (n : Nat) :
    oneToFour (l ++ [x]) = some n ↔ 1 ≤ n ∧ n ≤ 4 ∧ (∀ y ∈ l, y = 0x30) ∧ x.toNat = 0x30 + n := by
  rw [oneToFour_eq_some_iff, intValue_concat]
  refine ⟨fun ⟨⟨_, hdig⟩, hv, h1, h4⟩ => ?_, fun ⟨h1, h4, hz, hx⟩ => ?_⟩
  · obtain ⟨hl, hx⟩ := List.forall_mem_append.mp hdig
    have hx : digitByte x := hx x (by simp)
    have h0 : intValue l = 0 := by omega
    refine ⟨h1, h4, (intValue_eq_zero_iff hl).mp h0, ?_⟩
    rw [digitByte] at hx
    rw [digitValue] at hv
    omega
  · have hl : ∀ y ∈ l, digitByte y := fun y hy => by rw [hz y hy]; exact ⟨by decide, by decide⟩
    have h0 := (intValue_eq_zero_iff hl).mpr hz
    refine ⟨⟨by simp, List.forall_mem_append.mpr ⟨hl, ?_⟩⟩, ?_, h1, h4⟩
    · rw [List.forall_mem_singleton, digitByte]
      omega
    · rw [h0, digitValue_of_toNat hx, Nat.mul_zero, Nat.zero_add]

/-- A non-empty string is its first LEN - 1 bytes and its last. -/
theorem StringBuffer.bytes_eq_concat {f : StringBuffer} (h1 : 1 ≤ f.len.toNat) (h8 : f.len.toNat ≤ 8) :
    f.bytes = f.bytes.dropLast ++ [f.byte (f.len.toNat - 1)] := by
  have hl := bytes_length h8
  have hne : f.bytes ≠ [] := List.ne_nil_of_length_pos (by omega)
  conv_lhs => rw [← List.dropLast_concat_getLast hne]
  rw [List.getLast_eq_getElem, bytes_getElem, hl]

theorem StringBuffer.forall_mem_dropLast_bytes {f : StringBuffer} (h8 : f.len.toNat ≤ 8) (p : Byte → Prop) :
    (∀ x ∈ f.bytes.dropLast, p x) ↔ ∀ k, k + 1 < f.len.toNat → p (f.byte k) := by
  have hl := bytes_length h8
  rw [List.forall_mem_iff_getElem]
  simp only [List.length_dropLast, List.getElem_dropLast, bytes_getElem, hl]
  exact forall_congr' fun k => ⟨fun h hk => h (by omega), fun h hk => h (by omega)⟩

/-- The generator's integer check is the statements' `spells` (R125). -/
theorem oneToFour_eq_some_iff_spells {f : StringBuffer} (h8 : f.len.toNat ≤ 8) (n : Nat) :
    oneToFour f.bytes = some n ↔ f.spells n := by
  rw [StringBuffer.spells]
  by_cases h1 : 1 ≤ f.len.toNat
  · rw [StringBuffer.bytes_eq_concat h1 h8, oneToFour_concat_eq_some_iff,
      StringBuffer.forall_mem_dropLast_bytes h8 (· = 0x30)]
    simp only [h1, h8, true_and]
  · have hnil : f.bytes = [] := List.eq_nil_of_length_eq_zero (by rw [StringBuffer.bytes_length h8]; omega)
    simp [hnil, oneToFour_nil, h1]

/-! ## Type C: the generator (R125 to R129) -/

theorem typeC_family {f : List Byte} (g d : List Byte) (b : Bool) (hf : familyValue f = none) :
    asScheme .typeC (typeC f g d b) = .error .cFamily := by
  simp [typeC, hf, asScheme]

theorem typeC_group {f g : List Byte} {v : Nat} (d : List Byte) (b : Bool) (hf : familyValue f = some v)
    (hg : oneToFour g = none) : asScheme .typeC (typeC f g d b) = .error .cGroup := by
  simp [typeC, hf, hg, asScheme]

theorem typeC_device {f g d : List Byte} {v n : Nat} (b : Bool) (hf : familyValue f = some v) (hg : oneToFour g = some n)
    (hd : oneToFour d = none) : asScheme .typeC (typeC f g d b) = .error .cDevice := by
  simp [typeC, hf, hg, hd, asScheme]

theorem typeC_ok {f g d : List Byte} {v n m : Nat} (b : Bool) (hf : familyValue f = some v) (hg : oneToFour g = some n)
    (hd : oneToFour d = some m) :
    asScheme .typeC (typeC f g d b) = .ok (.typeC, familySymbols v ++ conf m ++ conf n ++ [.zero, .float, .float] ++
      [if b then .float else .zero]) := by
  simp only [typeC, hf, hg, hd, asScheme]

theorem encodeFn_typeC_ok {f g d : StringBuffer} {v n m : Nat} (b : Bool) (hf : f.len = 1) (hv : hexByte (f.byte 0) v)
    (hg : g.spells n) (hd : d.spells m) :
    encodeFn f g d b = .ok (.typeC, familySymbols v ++ conf m ++ conf n ++ [.zero, .float, .float] ++
      [if b then .float else .zero]) := by
  have f8 : f.len.toNat ≤ 8 := by rw [hf]; decide
  have g8 : g.len.toNat ≤ 8 := hg.2.1
  have d8 : d.len.toNat ≤ 8 := hd.2.1
  rw [encodeFn_family b f8 g8 d8 (by rw [hf]; decide), typeC_ok b ((familyValue_eq_some_iff f8 v).mpr ⟨hf, hv⟩)
    ((oneToFour_eq_some_iff_spells g8 n).mpr hg) ((oneToFour_eq_some_iff_spells d8 m).mpr hd)]

/-- Settles O22: the family's block, the device's pair, the group's, `0FF` and the symbol of S. -/
theorem typeCCodewordAndFrame : Obligations.TypeCCodewordAndFrame := by
  intro b s v g d hf hv hg hd
  obtain ⟨w, he, hs, htail⟩ := exec_encode_codeword (encodeFn_typeC_ok b hf hv hg hd)
  simp only [showsAt_append, List.length_append, length_familySymbols, length_conf] at hs
  obtain ⟨⟨⟨⟨hfam, hdev⟩, hgrp⟩, hfill⟩, hon⟩ := hs
  refine ⟨w, he, fun k hk => ?_, fun k hk => symbolAt_of_showsAt_conf hdev hk, fun k hk => symbolAt_of_showsAt_conf hgrp hk,
    hfill 0 (by decide), hfill 1 (by decide), hfill 2 (by decide), symbolAt_of_showsAt_status hon, htail⟩
  simpa using symbolAt_of_showsAt_familySymbols hfam hk

/-- Settles O28: the family, the group, then the device, each read as the statement spells it. -/
theorem typeCErrors : Obligations.TypeCErrors := by
  intro s ⟨hf, hg, hd⟩ h0
  have hC (b : Bool) := encodeFn_family b hf hg hd h0
  have vf := familyValue_eq_some_iff hf
  have vg := oneToFour_eq_some_iff_spells hg
  have vd := oneToFour_eq_some_iff_spells hd
  refine ⟨fun nf => encodingFails_of_error (c := .cFamily) fun b => ?_,
    fun ⟨f1, v, hv⟩ ng => encodingFails_of_error (c := .cGroup) fun b => ?_,
    fun ⟨f1, v, hv⟩ ⟨g, hgs⟩ nd => encodingFails_of_error (c := .cDevice) fun b => ?_,
    fun ⟨f1, v, hv⟩ ⟨g, hgs⟩ ⟨d, hds⟩ b => exec_encode_succeeds (encodeFn_typeC_ok b f1 hv hgs hds)⟩
  · have hnone : familyValue s.fam.bytes = none := Option.eq_none_iff_forall_ne_some.mpr fun v hv =>
      nf ⟨((vf v).mp hv).1, v, ((vf v).mp hv).2⟩
    rw [hC, typeC_family _ _ b hnone]
  · have hnone : oneToFour s.grp.bytes = none := Option.eq_none_iff_forall_ne_some.mpr fun g hgs => ng ⟨g, (vg g).mp hgs⟩
    rw [hC, typeC_group _ b ((vf v).mpr ⟨f1, hv⟩) hnone]
  · have hnone : oneToFour s.dev.bytes = none := Option.eq_none_iff_forall_ne_some.mpr fun d hds => nd ⟨d, (vd d).mp hds⟩
    rw [hC, typeC_device b ((vf v).mpr ⟨f1, hv⟩) ((vg g).mpr hgs) hnone]

end Sys2Proof.Machine

/-! EXPAND's bits, length and frame, skipped codes included (R151 to R155), and the lengths no buffer can hold (R150, R160,
R170). -/

namespace Sys2Proof.Machine

/-! ## The expansion, code by code -/

theorem validBefore_succ (d : Word) (n : Nat) :
    validBefore d (n + 1) = validBefore d n + if symbolAt d n = 0b01 then 0 else 1 := by
  by_cases h : symbolAt d n = 0b01 <;> simp [validBefore, List.range_succ, h]

theorem validBefore_le (d : Word) (n : Nat) : validBefore d n ≤ n :=
  List.countP_le_length.trans_eq List.length_range

/-- The expansion has two bits for each code that is not skipped (R153). -/
theorem length_expandBits (d : Word) (n : Nat) : (expandBits d n).length = 2 * validBefore d n := by
  induction n with
  | zero => rfl
  | succ n ih =>
    rw [expandBits_succ, List.length_append, ih, validBefore_succ, Nat.mul_add]
    by_cases h : symbolAt d n = 0b01
    · rw [h, expandCode_skipped]; rfl
    · rw [expandCode_valid h, if_neg h]; rfl

theorem expandBits_prefix (d : Word) {i n : Nat} (h : i ≤ n) : expandBits d i <+: expandBits d n := by
  induction n, h using Nat.le_induction with
  | base => exact List.prefix_refl _
  | succ n _ ih => rw [expandBits_succ]; exact ih.trans (List.prefix_append _ _)

/-- A code that is not skipped has its two bits right after those of the codes before it (R151). -/
theorem getD_expandBits {d : Word} {i n j : Nat} (hi : i < n) (hv : symbolAt d i ≠ 0b01) (hj : j < 2) :
    (expandBits d n).getD (2 * validBefore d i + j) false = (symbolAt d i).getLsbD j := by
  obtain ⟨rest, hrest⟩ := expandBits_prefix d (Nat.succ_le_of_lt hi)
  rw [← hrest, expandBits_succ, expandCode_valid hv, List.append_assoc, ← length_expandBits,
    List.getD_append_right _ _ _ _ (Nat.le_add_right _ _), Nat.add_sub_cancel_left]
  obtain rfl | rfl : j = 0 ∨ j = 1 := by omega
  · rfl
  · rfl

theorem getLsbD_packBits_tail {l : List Bool} {k : Nat} (h : l.length ≤ k) : (packBits l).getLsbD k = false := by
  by_cases hk : k < 32
  · rw [getLsbD_packBits l hk, List.getD_eq_default _ _ h]
  · exact BitVec.getLsbD_of_ge _ _ (by omega)

/-! ## EXPAND -/

/-- EXPAND of a codeword that fits writes STATUS and the expansion, and nothing else (R150, R154). -/
theorem exec_expand_of_fits {s : State} (h : s.cwLen.toNat ≤ 16) :
    exec .expand s = .next ((s.status 0x02 0x00).setBinary (expandBits s.cwData s.cwLen.toNat)) :=
  exec_of_ok (i := .expand) (expandOp_of_fits h)

/-- Settles O33: the expansion is the codes' bits one after another, and packing clears the rest. -/
theorem expandResultAndFrame : Obligations.ExpandResultAndFrame := by
  intro s h
  have hlen := length_expandBits s.cwData s.cwLen.toNat
  have bit {i j : Nat} (hi : i < s.cwLen.toNat) (hv : symbolAt s.cwData i ≠ 0b01) (hj : j < 2) :
      (packBits (expandBits s.cwData s.cwLen.toNat)).getLsbD (2 * validBefore s.cwData i + j) =
        (symbolAt s.cwData i).getLsbD j := by
    have := validBefore_le s.cwData i
    rw [getLsbD_packBits _ (by omega), getD_expandBits hi hv hj]
  refine ⟨packBits (expandBits s.cwData s.cwLen.toNat), ?_, fun i hi hv => ⟨bit hi hv Nat.two_pos, bit hi hv Nat.one_lt_two⟩,
    fun k hk => getLsbD_packBits_tail (hlen.trans_le hk)⟩
  rw [exec_expand_of_fits h, State.setBinary, hlen]

/-- Settles O34: with no code skipped the expansion is the codeword's own bits. -/
theorem expandIsIdentityOnValidCodewords : Obligations.ExpandIsIdentityOnValidCodewords := by
  intro s h hv
  refine ⟨packBits (expandBits s.cwData s.cwLen.toNat), ?_, packBits_expandBits_valid hv⟩
  rw [exec_expand_of_fits h, State.setBinary, length_expandBits_valid hv]

/-! ## Lengths above the capacities -/

theorem expandOp_of_tooLong {s : State} (h : 16 < s.cwLen.toNat) : expandOp s = .error .len := if_pos h

theorem compileOp_of_tooLong (p : Params) {s : State} (h : 32 < s.binLen.toNat) : compileOp p s = .error .len := if_pos h

theorem transmitOp_of_tooLong (p : Params) {s : State} (h : 33 < s.wfLen.toNat) : transmitOp p s = .error .len := if_pos h

/-- Settles O36: each body checks its length first, and an error is raised with nothing written but STATUS. -/
theorem tooLongBuffersAreLengthErrors : Obligations.TooLongBuffersAreLengthErrors := fun _ =>
  ⟨fun h => exec_of_error (i := .expand) (expandOp_of_tooLong h),
    fun h => exec_of_error (i := .compile) (compileOp_of_tooLong Config.build h),
    fun h => exec_of_error (i := .transmit) (transmitOp_of_tooLong Config.build h)⟩

end Sys2Proof.Machine

/-! COMPILE's waveforms, its trailing sync, its cleared tail and its frame (R160 to R163). -/

namespace Sys2Proof.Machine

theorem counts_of_eq_waveWord {e : BitVec 16} {w : Waveform} (h : e = waveWord w) :
    highCount e = w.high ∧ lowCount e = w.low :=
  h ▸ ⟨highCount_waveWord w, lowCount_waveWord w⟩

theorem getElem_setWaveforms (s : State) (q : Protocol) (i : Fin 33) :
    (s.setWaveforms q).wfData[i] = compiledEntry q s.binData s.binLen.toNat i.val :=
  Vector.getElem_ofFn i.isLt

/-- COMPILE of bits that fit writes STATUS and the waveforms, and nothing else (R160). -/
theorem exec_compile_of_fits {s : State} (h : s.binLen.toNat ≤ 32) :
    exec .compile s = .next ((s.status 0x03 0x00).setWaveforms (s.proto Config.build)) :=
  exec_of_ok (i := .compile) (compileOp_of_fits Config.build h)

/-- Settles O35: an entry is a data waveform before BIN_LEN, the sync at it, and cleared after it. -/
theorem compileResultAndFrame : Obligations.CompileResultAndFrame := by
  intro s h
  refine ⟨(s.setWaveforms (s.proto Config.build)).wfData, exec_compile_of_fits h, fun i => ?_⟩
  rw [getElem_setWaveforms]
  refine ⟨fun hi hb => counts_of_eq_waveWord ?one, fun hi hb => counts_of_eq_waveWord ?zero,
    fun hi => counts_of_eq_waveWord ?sync, fun hi => compiledEntry_tail _ _ hi⟩
  case one => rw [compiledEntry_data _ _ hi, if_pos hb]
  case zero => rw [compiledEntry_data _ _ hi, if_neg (ne_true_of_eq_false hb)]
  case sync => rw [hi, compiledEntry_sync]

end Sys2Proof.Machine

/-! TRANSMIT and the sequencer: what a start loads, how a segment and the start latency are counted, the pulse train, and the
edges to the end of a transmission (R170 to R188). -/

namespace Sys2Proof.Machine

/-! ## TRANSMIT (R170 to R173, R186) -/

theorem start_of_noLatency {p : Params} (s : State) (h : p.txStartLat = 0) :
    start p s = { s with
      busy := true, repLeft := s.repeatCount, wfIdx := 0, phase := false,
      txOut := firstLevel (s.proto p), holdLeft := dur p (s.proto p) (highCount s.wfData[0]) } := if_pos h

theorem start_of_latency {p : Params} (s : State) (h : 0 < p.txStartLat) :
    start p s = { s with
      busy := true, repLeft := s.repeatCount, wfIdx := 0, phase := false, startLeft := p.txStartLat } :=
  if_neg (Nat.ne_of_gt h)

/-- TRANSMIT of a sequence that fits writes STATUS and starts the sequencer (R170). -/
theorem exec_transmit_of_fits {s : State} (h1 : 1 ≤ s.wfLen.toNat) (h2 : s.wfLen.toNat ≤ 33) :
    exec .transmit s = .next (start Config.build (s.status 0x04 0x00)) :=
  exec_of_ok (i := .transmit) (transmitOp_of_fits Config.build h1 h2)

theorem transmitOp_of_empty (p : Params) {s : State} (h : s.wfLen = 0) : transmitOp p s = .ok s := by
  rw [transmitOp, if_neg (by rw [h]; decide), if_pos h]

/-- Settles O37: `start()` on the state whose STATUS is written, for either start latency. -/
theorem transmitStarts : Obligations.TransmitStarts := by
  intro s h1 h2
  rw [exec_transmit_of_fits h1 h2]
  exact ⟨fun h => congrArg _ (start_of_noLatency _ h), fun h => congrArg _ (start_of_latency _ h)⟩

/-- Settles O38: an empty sequence passes the length check and starts nothing. -/
theorem emptyTransmitDrivesNothing : Obligations.EmptyTransmitDrivesNothing := fun _ h =>
  exec_of_ok (i := .transmit) (transmitOp_of_empty Config.build h)

/-! ## Counting down (R171, R173, R174) -/

theorem runSequencer_succ_of_busy (p : Params) (k : Nat) {s : State} (h : s.busy = true) :
    runSequencer p (k + 1) s =
      ((runSequencer p k (seqStep p s)).1, stepDrives p s (seqStep p s) ++ (runSequencer p k (seqStep p s)).2) := by
  simp only [runSequencer, sequencerEdge_busy p h, h, if_true]

theorem stepDrives_of_not_due {p : Params} {s : State} (t : State) (h : segmentDue p s = false) : stepDrives p s t = [] := by
  simp [stepDrives, h]

theorem holdDown_of_pos (p : Params) {n : Nat} (h : 0 < n) : holdDown p n = n - 1 := if_neg (Nat.ne_of_gt h)

/-- With more than one cycle left a step counts one off and begins no segment (R174). -/
theorem seqStep_insideSegment (p : Params) {s : State} (h0 : s.startLeft = 0) (h : 1 < s.holdLeft) :
    seqStep p s = { s with holdLeft := s.holdLeft - 1 } ∧ segmentDue p s = false := by
  have hd := holdDown_of_pos p (n := s.holdLeft) (by omega)
  refine ⟨?_, ?_⟩
  · rw [seqStep, if_neg (by omega), hd, if_pos (by omega)]
  · rw [segmentDue, h0, hd, beq_eq_false_iff_ne.mpr (by omega : s.holdLeft - 1 ≠ 0)]; rfl

/-- With more than one edge of start latency left a step counts one off and begins no segment (R171). -/
theorem seqStep_beforeStart (p : Params) {s : State} (h : 1 < s.startLeft) :
    seqStep p s = { s with startLeft := s.startLeft - 1 } ∧ segmentDue p s = false := by
  refine ⟨?_, ?_⟩
  · rw [seqStep, if_pos (by omega), if_neg (by omega)]
  · rw [segmentDue, beq_eq_false_iff_ne.mpr (by omega : s.startLeft ≠ 1),
      beq_eq_false_iff_ne.mpr (by omega : s.startLeft ≠ 0)]
    rfl

/-- Settles O39, by induction on the edges: each counts one cycle off HOLD_LEFT. -/
theorem segmentHoldsItsLevel : Obligations.SegmentHoldsItsLevel := by
  intro p s j hb h0 hj
  induction j generalizing s with
  | zero => rfl
  | succ j ih =>
    obtain ⟨hstep, hdue⟩ := seqStep_insideSegment p h0 (by omega : 1 < s.holdLeft)
    have hrest := ih { s with holdLeft := s.holdLeft - 1 } hb h0 (Nat.lt_sub_of_add_lt hj)
    rw [runSequencer_succ_of_busy p j hb, stepDrives_of_not_due _ hdue, hstep, hrest, Nat.sub_sub, Nat.add_comm 1 j]
    rfl

/-- Settles O40, by induction on the edges: each counts one off START_LEFT. -/
theorem startLatencyHoldsThePin : Obligations.StartLatencyHoldsThePin := by
  intro p s j hb hj
  induction j generalizing s with
  | zero => rfl
  | succ j ih =>
    obtain ⟨hstep, hdue⟩ := seqStep_beforeStart p (by omega : 1 < s.startLeft)
    have hrest := ih { s with startLeft := s.startLeft - 1 } hb (Nat.lt_sub_of_add_lt hj)
    rw [runSequencer_succ_of_busy p j hb, stepDrives_of_not_due _ hdue, hstep, hrest, Nat.sub_sub, Nat.add_comm 1 j]
    rfl

/-! ## The end of a segment (R174, R178) -/

section
variable (p : Params) {s : State}

theorem advance_fromHigh (h : s.phase = false) : advance p s = some { s with phase := true } := if_pos h

theorem advance_toNextWaveform (hp : s.phase = true) (hn : s.wfIdx.toNat + 1 < s.wfLen.toNat) (hl : s.wfLen.toNat ≤ 33) :
    advance p s = some { s with phase := false, wfIdx := s.wfIdx + 1 } := by
  rw [advance, if_neg (by simp [hp]), if_pos hn, idxUp_of_lt p (by omega)]

theorem advance_toNextFrame (hp : s.phase = true) (hn : s.wfLen.toNat ≤ s.wfIdx.toNat + 1) (hr : 1 < s.repLeft.toNat) :
    advance p s = some { s with phase := false, wfIdx := 0, repLeft := s.repLeft - 1 } := by
  have hne : s.repLeft - 1 ≠ 0 := fun e => by
    have h : s.repLeft.toNat - 1 = 0 := (toNat_pred hr.le).symm.trans (congrArg BitVec.toNat e)
    omega
  rw [advance, if_neg (by simp [hp]), if_neg (by omega), repDown_of_pos p hr.le, if_neg hne]

theorem advance_atEnd (hp : s.phase = true) (hn : s.wfLen.toNat ≤ s.wfIdx.toNat + 1) (hr : s.repLeft.toNat = 1) :
    advance p s = none := by
  have h0 : repDown p s.repLeft = 0 := BitVec.eq_of_toNat_eq (by rw [toNat_repDown p hr.ge, hr]; rfl)
  rw [advance, if_neg (by simp [hp]), if_neg (by omega), if_pos h0]

/-- On the last cycle of a segment a step begins the segment `advance` names (R174). -/
theorem seqStep_begins {t : State} (h0 : s.startLeft = 0) (h1 : s.holdLeft = 1)
    (ha : advance p { s with holdLeft := 0 } = some t) : seqStep p s = beginSegment p t := by
  rw [seqStep, if_neg (by omega), holdDown_of_pos p (by omega), if_neg (by omega), ha]

/-- On the last cycle of the last segment a step ends the transmission (R174, R175). -/
theorem seqStep_finishes (h0 : s.startLeft = 0) (h1 : s.holdLeft = 1) (ha : advance p { s with holdLeft := 0 } = none) :
    seqStep p s = finish s := by
  rw [seqStep, if_neg (by omega), holdDown_of_pos p (by omega), if_neg (by omega), ha]

end

/-- Settles O41: the four answers of `advance`; a segment begun loads HOLD_LEFT anew. -/
theorem segmentEndsAdvanceThePosition : Obligations.SegmentEndsAdvanceThePosition := fun p _ h0 h1 =>
  ⟨fun hp => (seqStep_begins p h0 h1 (advance_fromHigh p hp)).trans rfl,
    fun hp hn hl => (seqStep_begins p h0 h1 (advance_toNextWaveform p hp hn hl)).trans rfl,
    fun hp hn hr => (seqStep_begins p h0 h1 (advance_toNextFrame p hp hn hr)).trans rfl,
    fun hp hn hr => seqStep_finishes p h0 h1 (advance_atEnd p hp hn hr)⟩

/-! ## The pulse train (R172, R177, R183) -/

/-- The train is the waveforms' segments, over the indices of every frame. -/
theorem train_eq_flatMap (p : Params) (s : State) :
    train p s = (List.replicate s.repeatCount.toNat (List.range s.wfLen.toNat)).flatten.flatMap (waveSegments p s) := by
  simp only [train, frameOf, List.flatMap_def, List.map_flatten, List.flatten_flatten, List.map_replicate]

/-- Two segments a waveform, so the level goes by the parity of the segment's place (R172). -/
theorem level_of_waves (p : Params) (s : State) (l : List Nat) {k : Nat} (h : k < (l.flatMap (waveSegments p s)).length) :
    (l.flatMap (waveSegments p s))[k].level = if k % 2 = 0 then firstLevel (s.proto p) else secondLevel (s.proto p) := by
  induction l generalizing k with
  | nil => exact absurd h (Nat.not_lt_zero k)
  | cons i l ih =>
    match k with
    | 0 => rfl
    | 1 => rfl
    | k + 2 =>
      rw [Nat.add_mod_right]
      exact ih (Nat.lt_of_add_lt_add_right (n := 2) h)

/-- Settles O44: the train as segments of waveforms, whose number and levels are known. -/
theorem trainHasTwoSegmentsPerWaveform : Obligations.TrainHasTwoSegmentsPerWaveform := by
  intro p s
  rw [train_eq_flatMap]
  refine ⟨?_, fun k h => level_of_waves p s _ h⟩
  rw [length_waves, List.length_flatten, List.map_replicate, List.sum_replicate_nat, List.length_range,
    Nat.mul_comm s.repeatCount.toNat, Nat.mul_assoc]

/-- Settles O43: at its last edge a transmission has begun all it had pending, which with the start's own segment is the
train. -/
theorem pulseTrainIsTheSegmentList : Obligations.PulseTrainIsTheSegmentList := by
  intro p s _ h0 h1 h2 h3
  obtain ⟨hrun, hrem, hpend⟩ := start_spec p h0 h1 h2 h3
  rw [← hrem, runSequencer_ended p hrun]
  exact ⟨hpend, rfl⟩

/-! ## The edges to the end (R175, R176, R185, R188) -/

theorem EdgeInput.quiet.watches {e : EdgeInput} (h : e.quiet) : e.watches := by
  obtain ⟨hr, hn | ⟨a, ha⟩⟩ := h
  · exact ⟨hr, fun _ _ => by rw [hn]; exact nofun⟩
  · exact ⟨hr, fun _ _ => by rw [ha]; exact nofun⟩

/-- A transmission the host only watches is busy before its last edge. -/
theorem run_watched_busy {s : State} (hr : Running Config.build s) (hq : ∀ e ∈ s.inputs, e.quiet) {k : Nat}
    (hk : k < remaining Config.build s) : ∃ u, Host.Core.run Sys2Proof.core k s = .next u ∧ u.busy = true := by
  obtain ⟨i, r, h⟩ := run_watched k fun e he => (hq e he).watches
  exact ⟨_, h, (runSequencer_running Config.build hr hk).1.busy⟩

/-- A transmission the host only watches has ended at its last edge (R175). -/
theorem run_watched_ended {s : State} (hr : Running Config.build s) (hq : ∀ e ∈ s.inputs, e.quiet) :
    ∃ i r, Host.Core.run Sys2Proof.core (remaining Config.build s) s = .next ((ended Config.build s).withPort i r) := by
  obtain ⟨i, r, h⟩ := run_watched (remaining Config.build s) fun e he => (hq e he).watches
  rw [runSequencer_ended _ hr] at h
  exact ⟨i, r, h⟩

theorem start_proto (p : Params) (s : State) : (start p s).proto p = s.proto p := by rw [start_frame]; rfl

/-- Settles O42: `start()` has TX_START_LAT + T edges to go, and the host's watching takes none away. -/
theorem transmissionCompletesOnTime : Obligations.TransmissionCompletesOnTime := by
  intro s t h1 h2 h3 h0 hq ht
  rw [exec_transmit_of_fits h1 h2] at ht
  cases ht
  obtain ⟨hrun, hrem, -⟩ := start_spec Config.build (s := s.status 0x04 0x00) h0 h1 h2 h3
  have hrem' : remaining Config.build (start Config.build (s.status 0x04 0x00)) =
      Config.build.txStartLat + transmissionCycles Config.build s := hrem
  have hq' : ∀ e ∈ (start Config.build (s.status 0x04 0x00)).inputs, e.quiet := by
    rw [(start_keepsOperands _ _).inputs]; exact hq
  rw [← hrem']
  refine ⟨fun k hk => run_watched_busy hrun hq' hk, ?_⟩
  obtain ⟨i, r, hend⟩ := run_watched_ended hrun hq'
  have hlevel : (start Config.build (s.status 0x04 0x00)).proto Config.build = s.proto Config.build := start_proto _ _
  refine ⟨_, hend, ?_⟩
  rw [ended, hlevel]; rfl

/-- The invariant bounds the edges a transmission has to go (R188). -/
theorem Inv.remaining_bound {s : State} (h : Inv s) (hb : s.busy = true) :
    remaining Config.build s ≤ Config.build.txStartLat +
      s.repeatCount.toNat * (2 * s.wfLen.toNat * max 1 (255 * 65535 * Config.build.ticksPerUs)) := by
  have k := h.in_progress hb
  have hhold : s.startLeft = 0 → s.holdLeft ≤ max 1 (255 * 65535 * Config.build.ticksPerUs) :=
    fun h0 => (k.driving h0).2.1.trans (dur_le _ _ _)
  have hstart : s.startLeft ≤ Config.build.txStartLat := by
    rcases Nat.eq_zero_or_pos s.startLeft with h0 | h0
    · omega
    · exact (k.waiting h0).1
  exact (remaining_le _ (h.running hb) hhold).trans
    (Nat.add_le_add hstart (Nat.mul_le_mul_right _ k.frames.2))

/-- Settles O45: a transmission ends when its remaining edges are over, and the invariant bounds them. -/
theorem everyTransmissionEnds : Obligations.EveryTransmissionEnds := by
  intro s hi hb hq
  obtain ⟨i, r, hend⟩ := run_watched_ended (hi.running hb) hq
  exact ⟨remaining Config.build s, _, hi.remaining_bound hb, hend, rfl⟩

/-- Settles O46: both accesses find the one state the sequencer left, with BUSY = 1. -/
theorem noAccessDisturbsATransmission : Obligations.NoAccessDisturbsATransmission := by
  intro s x y rest hb
  obtain ⟨t, ht⟩ := hostAccess_next (sequencerEdge Config.build { s with inputs := rest, reply := none }) x
  obtain ⟨u, hu⟩ := hostAccess_next (sequencerEdge Config.build { s with inputs := rest, reply := none }) y
  have ht' := hostAccess_busy hb ht
  have hu' := hostAccess_busy hb hu
  refine ⟨t, u, ht, hu, ?_, ?_⟩
  · rw [ht']; exact hu'
  · rw [ht']; exact hb

end Sys2Proof.Machine

/-! SEND: the four commands' effect in one access (R104, R180 to R182). -/

namespace Sys2Proof.Machine

/-! ## SEND by the encoder's answer -/

/-- A codeword answered: SEND writes STATUS and what the pipeline wrote, and starts the sequencer (R180). -/
theorem exec_send_ok {b : Bool} {s : State} {k : Scheme} {l : List Tri} (h : encodeFn s.fam s.grp s.dev b = .ok (k, l)) :
    exec (.send b) s = .next (start Config.build ((s.beginCommand 0x05).sent Config.build k l)) :=
  exec_of_ok (i := .send b) (sendOp_of_encoded Config.build (s := s.beginCommand 0x05) h)

/-- An ENCODE that ends OK has written the encoder's codeword (R103). -/
theorem encoded_of_exec_encode {b : Bool} {s t : State} (h : exec (.encode b) s = .next t) (hr : t.result = 0x00) :
    ∃ k l, encodeFn s.fam s.grp s.dev b = .ok (k, l) ∧ t = (s.beginCommand 0x01).setCodeword k l :=
  encodeOp_eq_ok (exec_ok_body h hr)

/-- An ENCODE that ends otherwise shows the encoder's error (R104). -/
theorem error_of_exec_encode {b : Bool} {s t : State} (h : exec (.encode b) s = .next t) (hr : t.result ≠ 0x00) :
    ∃ c, encodeFn s.fam s.grp s.dev b = .error c ∧ t = (s.beginCommand 0x01).raise c := by
  obtain ⟨c, hc, ht⟩ := exec_error_body h hr
  exact ⟨c, encodeOp_eq_error (s := s.beginCommand 0x01) hc, ht⟩

/-- Settles O30: SEND and ENCODE ask the encoder the same question, and nothing after its codeword can fail. -/
theorem sendFailsWithTheEncodersError : Obligations.SendFailsWithTheEncodersError := by
  intro b s t h
  refine ⟨fun hr => ?_, fun hr => ?_⟩
  · obtain ⟨c, hc, rfl⟩ := error_of_exec_encode h hr
    exact exec_send_error hc
  · obtain ⟨k, l, he, -⟩ := encoded_of_exec_encode h hr
    exact ⟨_, exec_send_ok he, start_result _ _, start_busy _ _⟩

/-! ## SEND as the four commands (R180, R181) -/

theorem exec_expand_codeword (s : State) (k : Scheme) {l : List Tri} (hl : l.length = 12) :
    exec .expand (s.setCodeword k l) =
      .next { (s.beginCommand 0x02).setCodeword k l with binLen := 24, binData := packSymbols l } :=
  exec_of_ok (i := .expand) (expandOp_setCodeword (s.beginCommand 0x02) k hl)

theorem exec_compile_codeword (s : State) (k : Scheme) (l : List Tri) :
    exec .compile { s.setCodeword k l with binLen := 24, binData := packSymbols l } =
      .next ((s.beginCommand 0x03).sent Config.build k l) :=
  exec_compile_of_fits (show 24 ≤ 32 by decide)

theorem exec_transmit_sent (s : State) (k : Scheme) (l : List Tri) :
    exec .transmit (s.sent Config.build k l) = .next (start Config.build ((s.beginCommand 0x04).sent Config.build k l)) :=
  exec_transmit_of_fits (show 1 ≤ 25 by decide) (show 25 ≤ 33 by decide)

theorem start_withLastOp (p : Params) (s : State) (op : Byte) :
    start p { s with lastOp := op } = { start p s with lastOp := op } := by
  unfold start; split <;> rfl

/-- Settles O50: the four commands and SEND start the same state but for the opcode their STATUS shows. -/
theorem sendEqualsTheFourCommands : Obligations.SendEqualsTheFourCommands := by
  intro b s s1 s2 s3 s4 h1 hr h2 h3 h4
  obtain ⟨k, l, he, rfl⟩ := encoded_of_exec_encode h1 hr
  rw [exec_expand_codeword _ k (encodeFn_length he)] at h2
  cases h2
  rw [exec_compile_codeword] at h3
  cases h3
  rw [exec_transmit_sent] at h4
  cases h4
  refine ⟨?_, start_result _ _⟩
  rw [exec_send_ok he, ← start_withLastOp]
  rfl

/-! ## What SEND builds and starts (R180 to R182) -/

/-- The strings the four generators accept are encoded (R110, R120, R125, R135). -/
theorem encodeFn_of_encodable {s : State} (b : Bool) (h : s.encodable) :
    ∃ k l, encodeFn s.fam s.grp s.dev b = .ok (k, l) := by
  rcases h with ⟨hf, hg, hd⟩ | ⟨hf, hg, hd, xg, xd⟩ | ⟨hf, ⟨v, hv⟩, ⟨g, hg⟩, d, hd⟩ | ⟨hf, hg, hd, ⟨k, hk⟩, xd⟩
  · exact ⟨_, _, encodeFn_typeA_ok b hf hg hd⟩
  · exact ⟨_, _, (encodeFn_typeB b hf hg hd (by rw [digitByte]; omega) (by rw [digitByte]; omega)).trans
      (typeB_ok b (by rw [digitValue]; omega) (by rw [digitValue]; omega))⟩
  · exact ⟨_, _, encodeFn_typeC_ok b hf hv hg hd⟩
  · exact ⟨_, _, (encodeFn_typeD b hf hg hd (not_digitByte_of_letterByte hk) (by rw [digitByte]; omega)).trans
      (typeD_ok b hk (by rw [digitValue]; omega))⟩

/-- The waveforms SEND builds: one a bit of the codeword, the sync, and the cleared tail (R161 to R163). -/
theorem getElem_wfData_sent (p : Params) (s : State) (k : Scheme) (l : List Tri) (i : Fin 33) :
    (s.sent p k l).wfData[i] = compiledEntry (s.proto p) (packSymbols l) 24 i.val :=
  getElem_setWaveforms _ _ i

/-- What any start writes for sure, and the three fields the start latency decides (R171). -/
theorem start_eq (p : Params) (s : State) :
    start p s = { s with
      busy := true, repLeft := s.repeatCount, wfIdx := 0, phase := false,
      startLeft := (start p s).startLeft, holdLeft := (start p s).holdLeft, txOut := (start p s).txOut } := by
  unfold start; split <;> rfl

/-- Settles O49: an accepted string's codeword, its expansion, its waveforms, and the start. -/
theorem sendBuildsAndStarts : Obligations.SendBuildsAndStarts := by
  intro b s henc
  obtain ⟨k, l, he⟩ := encodeFn_of_encodable b henc
  refine ⟨_, ((s.beginCommand 0x05).sent Config.build k l).wfData, _, exec_encode_ok he, rfl, exec_send_ok he,
    start_eq _ _, fun i => ?_, fun h => ?_, fun h => ?_⟩
  · rw [getElem_wfData_sent]
    refine ⟨fun hi => counts_of_eq_waveWord (compiledEntry_data _ _ hi), fun hi => counts_of_eq_waveWord ?_,
      fun hi => compiledEntry_tail _ _ hi⟩
    rw [hi, compiledEntry_sync]; rfl
  · rw [start_of_noLatency _ h]; exact ⟨rfl, rfl, rfl⟩
  · rw [start_of_latency _ h]; exact ⟨rfl, rfl, rfl⟩

end Sys2Proof.Machine

/-! SET_PROTOCOL and SET_REPEAT: the numbers each accepts, and what it writes (R200 to R206). -/

namespace Sys2Proof.Machine

/-! ## SET_PROTOCOL (R200 to R203) -/

theorem State.setProtocol_natCast (s : State) (n : Nat) : s.setProtocol n = { s with protocol := BitVec.ofNat 3 n } := by
  rw [State.setProtocol, BitVec.ofInt_natCast]

theorem setProtocolOp_of_inRange {s : State} (h1 : 1 ≤ sint32 s.arg) (h6 : sint32 s.arg ≤ 6) :
    setProtocolOp s = .ok (s.setProtocol (sint32 s.arg)) := if_neg (by omega)

theorem setProtocolOp_of_outOfRange {s : State} (h : ¬(1 ≤ sint32 s.arg ∧ sint32 s.arg ≤ 6)) :
    setProtocolOp s = .error .protocolRange := if_pos (by omega)

/-- SET_PROTOCOL of a number in range writes STATUS and PROTOCOL, and nothing else (R201). -/
theorem exec_setProtocol_of_inRange {s : State} (h1 : 1 ≤ sint32 s.arg) (h6 : sint32 s.arg ≤ 6) :
    exec .setProtocol s = .next ((s.status 0x06 0x00).setProtocol (sint32 s.arg)) :=
  exec_of_ok (i := .setProtocol) (setProtocolOp_of_inRange (s := s.beginCommand 0x06) h1 h6)

/-- SET_PROTOCOL of any other number raises E_PROTOCOL_RANGE and leaves PROTOCOL as it was (R200, R203). -/
theorem exec_setProtocol_of_outOfRange {s : State} (h : ¬(1 ≤ sint32 s.arg ∧ sint32 s.arg ≤ 6)) :
    exec .setProtocol s = .next (s.status 0x06 0x60) :=
  exec_of_error (i := .setProtocol) (setProtocolOp_of_outOfRange (s := s.beginCommand 0x06) h)

/-- Settles O52: the signed value of ARG is in 1..6 exactly when ARG is the word of one of these numbers. -/
theorem setProtocolAcceptsOneToSix : Obligations.SetProtocolAcceptsOneToSix := by
  refine fun s => ⟨fun n h1 h6 harg => ?_, fun hne => exec_setProtocol_of_outOfRange fun ⟨h1, h6⟩ => ?_⟩
  · have hn : sint32 s.arg = n := harg ▸ sint32_ofNat (by omega)
    rw [exec_setProtocol_of_inRange (by omega) (by omega), hn, State.setProtocol_natCast]
  · exact hne (sint32 s.arg).toNat (by omega) (by omega) (sint32_pos h1).1

/-! ## SET_REPEAT (R204 to R206) -/

theorem State.setRepeat_natCast (s : State) (n : Nat) : s.setRepeat n = { s with repeatCount := BitVec.ofNat 31 n } := by
  rw [State.setRepeat, BitVec.ofInt_natCast]

theorem setRepeatOp_of_pos {s : State} (h : 1 ≤ sint32 s.arg) :
    setRepeatOp s = .ok (s.setRepeat (sint32 s.arg)) := if_neg (by omega)

theorem setRepeatOp_of_not_pos {s : State} (h : ¬1 ≤ sint32 s.arg) :
    setRepeatOp s = .error .repeatRange := if_pos (by omega)

/-- SET_REPEAT of a positive number writes STATUS and REPEAT, and nothing else (R205). -/
theorem exec_setRepeat_of_pos {s : State} (h : 1 ≤ sint32 s.arg) :
    exec .setRepeat s = .next ((s.status 0x07 0x00).setRepeat (sint32 s.arg)) :=
  exec_of_ok (i := .setRepeat) (setRepeatOp_of_pos (s := s.beginCommand 0x07) h)

/-- SET_REPEAT of any other number raises E_REPEAT_RANGE and leaves REPEAT as it was (R204, R206). -/
theorem exec_setRepeat_of_not_pos {s : State} (h : ¬1 ≤ sint32 s.arg) :
    exec .setRepeat s = .next (s.status 0x07 0x61) :=
  exec_of_error (i := .setRepeat) (setRepeatOp_of_not_pos (s := s.beginCommand 0x07) h)

/-- Settles O53: the signed value of ARG is positive exactly when ARG is the word of a number in 1..2^31 - 1. -/
theorem setRepeatAcceptsPositive : Obligations.SetRepeatAcceptsPositive := by
  refine fun s => ⟨fun n h1 hlt harg => ?_, fun hne => exec_setRepeat_of_not_pos fun h1 => ?_⟩
  · have hn : sint32 s.arg = n := harg ▸ sint32_ofNat hlt
    rw [exec_setRepeat_of_pos (by omega), hn, State.setRepeat_natCast]
  · obtain ⟨hword, hlt⟩ := sint32_pos h1
    exact hne (sint32 s.arg).toNat (by omega) hlt hword

end Sys2Proof.Machine

/-! Errors and completion: a failed command writes STATUS alone, and nothing stops the machine (R84, R220, R223). -/

namespace Sys2Proof.Machine

/-- Settles O55: a RESULT other than OK was raised by the command's body, and raising writes RESULT alone after `issue`'s own
writes. -/
theorem failedCommandsWriteOnlyStatus : Obligations.FailedCommandsWriteOnlyStatus := by
  intro i s t h hr
  obtain ⟨c, -, rfl⟩ := exec_error_body h hr
  rfl

/-- An edge completes in a reset as in running, whatever access it carries (R62, R70, R250). -/
theorem step_next (s : State) : ∃ t, step s = .next t := by
  cases hrst : s.edgeInput.rst with
  | true => exact ⟨resetEdge s, step_of_reset hrst⟩
  | false => rw [step_of_running hrst]; exact hostAccess_next s.atAccess s.edgeInput.access

/-- Settles O7: every edge and every command ends in a next state, an error being a RESULT in that state (log 11). -/
theorem everyEdgeAndCommandCompletes : Obligations.EveryEdgeAndCommandCompletes := ⟨step_next, exec_next⟩

end Sys2Proof.Machine

/-! The reset edge, the busy interlock, and how long a SEND under protocol 1 lasts (R250 to R252, R262, R268, R269). -/

namespace Sys2Proof.Machine

/-! ## A reset edge (R250 to R252) -/

theorem resetReply_of_not_read {x : Option HostAccess} (h : ∀ a, x ≠ some (.read a)) : resetReply x = none := by
  match x with
  | none => rfl
  | some (.write _ _) => rfl
  | some (.read a) => exact absurd rfl (h a)

theorem resetEdge_of_inputs {s : State} {e : EdgeInput} {rest : List EdgeInput} (h : s.inputs = e :: rest) :
    resetEdge s = { State.reset with inputs := rest, reply := resetReply e.access } := by
  rw [resetEdge, State.edgeInput, h]; rfl

/-- Settles O8: the step is the reset edge, and what that answers goes by the access alone. -/
theorem resetEdgeLoadsTheResetState : Obligations.ResetEdgeLoadsTheResetState := by
  intro s x rest hin
  have hrst : s.edgeInput.rst = true := by rw [State.edgeInput, hin]; rfl
  refine ⟨resetReply x, ?_, ?_, resetReply_of_not_read⟩
  · rw [step_of_reset hrst, resetEdge_of_inputs hin]
  · rintro ⟨a, rfl⟩; rfl

/-- Settles O57: the reset state meets the invariant, and the port is outside it. -/
theorem resetEdgeEstablishesTheInvariant : Obligations.ResetEdgeEstablishesTheInvariant := by
  intro s t hrst h
  rw [step_of_reset hrst] at h
  cases h
  exact resetStateMeetsTheInvariant.withPort _ _ _

/-! ## The interlock (R262) -/

/-- At an edge with a read and no reset the step answers the word of the state the sequencer left (R66, R70). -/
theorem step_of_read {s : State} {a : Addr} (h : s.presents (some (.read a))) :
    step s = .next (s.atAccess.answer (memRead Config.build s.atAccess a)) := by
  rw [State.presents] at h
  rw [step_of_running (by rw [h]), h]; rfl

/-- Settles O11: the access finds BUSY = 1, so a write is dropped; a read does not ask for BUSY. -/
theorem busyDropsEveryWrite : Obligations.BusyDropsEveryWrite :=
  fun _ a hb => ⟨fun v hw => (step_of_write hw).trans (memWrite_busy a v hb), step_of_read⟩

/-! ## The cycles of a frame (R173, R175) -/

/-- A segment of at least one cycle lasts as long as its units (R173). -/
theorem dur_of_pos (p : Params) {q : Protocol} {n : Byte} (h : 1 ≤ n.toNat * q.pulseUnit.toNat) :
    dur p q n = n.toNat * q.pulseUnit.toNat * p.ticksPerUs :=
  Nat.max_eq_right (Nat.mul_pos h p.ticksPerUsPred.succ_pos)

theorem cyclesOf_waveSegments (q : Protocol) {p : Params} {s : State} {i : Nat} {w : Waveform} (h : wfEntry p s i = waveWord w) :
    cyclesOf p q (waveSegments p s i) = dur p q w.high + dur p q w.low := by
  rw [waveSegments, h, highCount_waveWord, lowCount_waveWord, cyclesOf_cons, cyclesOf_cons, cyclesOf_nil, Nat.add_zero]

/-- Waveforms of one length `c` take `c` each, whatever they show. -/
theorem cyclesOf_waves_const {p : Params} {q : Protocol} {s : State} {c : Nat} {l : List Nat}
    (h : ∀ i ∈ l, cyclesOf p q (waveSegments p s i) = c) : cyclesOf p q (l.flatMap (waveSegments p s)) = l.length * c := by
  induction l with
  | nil => simp
  | cons i l ih =>
    rw [List.forall_mem_cons] at h
    rw [List.flatMap_cons, cyclesOf_append, h.1, ih h.2, List.length_cons, Nat.succ_mul, Nat.add_comm]

/-- `n` data waveforms of one length and the sync after them. -/
theorem cyclesOf_frameOf {p : Params} {q : Protocol} {s : State} {n c d : Nat} (hn : s.wfLen.toNat = n + 1)
    (hdata : ∀ i < n, cyclesOf p q (waveSegments p s i) = c) (hsync : cyclesOf p q (waveSegments p s n) = d) :
    cyclesOf p q (frameOf p s) = n * c + d := by
  rw [frameOf, hn, List.range_succ, List.flatMap_append, cyclesOf_append, List.flatMap_singleton, hsync,
    cyclesOf_waves_const fun i hi => hdata i (List.mem_range.mp hi), List.length_range]

/-! ## A SEND under protocol 1 (R268, R269) -/

/-- A SEND that ends OK has built its waveforms from a codeword of the encoder, and started (R180). -/
theorem sent_of_exec_send {b : Bool} {s t : State} (h : exec (.send b) s = .next t) (hr : t.result = 0x00) :
    ∃ k l, t = start Config.build ((s.beginCommand 0x05).sent Config.build k l) := by
  obtain ⟨_, _, _, hop, -⟩ := sendOp_eq_ok (exec_ok_body h hr)
  obtain ⟨k, l, henc, -⟩ := encodeOp_eq_ok hop
  rw [exec_send_ok (s := s) henc] at h
  cases h
  exact ⟨k, l, rfl⟩

/-- Starting moves neither the waveforms nor what their length depends on. -/
theorem transmissionCycles_start (p : Params) (s : State) : transmissionCycles p (start p s) = transmissionCycles p s := by
  rw [start_frame]; rfl

theorem wfEntry_sent (p : Params) (s : State) (k : Scheme) (l : List Tri) {i : Nat} (h : i < 33) :
    wfEntry p (s.sent p k l) i = compiledEntry (s.proto p) (packSymbols l) 24 i :=
  (dif_pos h).trans (getElem_wfData_sent p s k l ⟨i, h⟩)

/-- Under protocol 1 a waveform with two counts above 0 lasts their sum in units of 350 microseconds (R43, R173). -/
theorem protocol1_wave_cycles (p : Params) {w : Waveform} (hhigh : 0 < w.high.toNat) (hlow : 0 < w.low.toNat) :
    dur p protocol1 w.high + dur p protocol1 w.low = (w.high.toNat + w.low.toNat) * (350 * p.ticksPerUs) := by
  have hunit : protocol1.pulseUnit.toNat = 350 := rfl
  rw [dur_of_pos p (Nat.mul_pos hhigh (by decide)), dur_of_pos p (Nat.mul_pos hlow (by decide)), hunit, ← Nat.add_mul,
    ← Nat.add_mul, Nat.mul_assoc]

/-- A bit's waveform lasts 4 units, (1, 3) for a 0 as (3, 1) for a 1 (R43, R269). -/
theorem protocol1_data_cycles (p : Params) (b : Bool) :
    dur p protocol1 (if b then protocol1.oneBit else protocol1.zeroBit).high +
      dur p protocol1 (if b then protocol1.oneBit else protocol1.zeroBit).low = 4 * (350 * p.ticksPerUs) := by
  cases b with
  | false => exact protocol1_wave_cycles p (w := protocol1.zeroBit) (by decide) (by decide)
  | true => exact protocol1_wave_cycles p (w := protocol1.oneBit) (by decide) (by decide)

/-- The sync lasts 32 units (R43). -/
theorem protocol1_sync_cycles (p : Params) :
    dur p protocol1 protocol1.syncBit.high + dur p protocol1 protocol1.syncBit.low = 32 * (350 * p.ticksPerUs) :=
  protocol1_wave_cycles p (by decide) (by decide)

/-- 24 data waveforms of 4 units and a sync of 32: 128 units of 350 microseconds, whatever the codeword (R268). -/
theorem cyclesOf_frameOf_sent_protocol1 (p : Params) {s : State} (k : Scheme) (l : List Tri) (h : s.proto p = protocol1) :
    cyclesOf p protocol1 (frameOf p (s.sent p k l)) = 44800 * p.ticksPerUs := by
  have hdata : ∀ i < 24, cyclesOf p protocol1 (waveSegments p (s.sent p k l) i) = 4 * (350 * p.ticksPerUs) := by
    intro i hi
    rw [cyclesOf_waveSegments _ ((wfEntry_sent p s k l (by omega)).trans (compiledEntry_data _ _ hi)), h,
      protocol1_data_cycles]
  have hsync : cyclesOf p protocol1 (waveSegments p (s.sent p k l) 24) = 32 * (350 * p.ticksPerUs) := by
    rw [cyclesOf_waveSegments _ ((wfEntry_sent p s k l (by omega)).trans (compiledEntry_sync _ _ _)), h,
      protocol1_sync_cycles]
  rw [cyclesOf_frameOf (n := 24) rfl hdata hsync]
  omega

/-- Settles O51: the start sends REPEAT frames of SEND's own waveforms, each of 128 units. -/
theorem protocol1SendLength : Obligations.Protocol1SendLength := by
  intro b s t hp h hr
  obtain ⟨k, l, rfl⟩ := sent_of_exec_send h hr
  have hproto : (s.beginCommand 0x05).proto Config.build = protocol1 := if_pos hp
  have hsent : ((s.beginCommand 0x05).sent Config.build k l).proto Config.build = protocol1 := hproto
  rw [transmissionCycles_start, transmissionCycles, hsent, cyclesOf_frameOf_sent_protocol1 Config.build k l hproto]
  rfl

end Sys2Proof.Machine
